-- ==== Sys2Proof/Word.lean ====
section
/-! DEFINITION. The words of HLL-CLZ and the one integer function every width shares (00_scope rules R5, R8, R9). -/

namespace Sys2Proof

/-- A command word: 66 bits, `op` in bits 65:64 and `arg` in bits 63:0 (30_encoding rule R43). -/
abbrev CmdWord := BitVec 66

/-- A response word: 65 bits, `err` in bit 64 and `data` in bits 63:0 (30_encoding rule R48). -/
abbrev RspWord := BitVec 65

/-- The 64-bit operand of a command (30_encoding rule R43), the hash value `h` among them. -/
abbrev Arg := BitVec 64

/-- A binary64 value as its 64-bit word (00_scope rule R11). -/
abbrev F64 := BitVec 64

/-- One byte: a register cell (10_state rule R16) or a byte of a digest or text (20_memory rules R34, R35). -/
abbrev Byte := BitVec 8

/-- `floorLog2(v)`: the index of the most-significant 1 bit of `v`, used with `v > 0` only (00_scope rule R9). -/
def floorLog2 (v : Nat) : Nat := Nat.log2 v

end Sys2Proof
end

