-- ==== Sys2Proof/Syntax.lean ====
section
/-! DEFINITION. The three commands of the opcode table (30_encoding rule R44), the reserved encodings by name
(rule R50), and the host's assembler lines (rules R54, R55). -/

namespace Sys2Proof

/-- A command of the block, one constructor per row of spec/opcode_table.json. -/
inductive Instr where
  /-- `INIT n`: construct an estimator of precision `n` (40_construct rule R57). All 64 bits of `n` count (rule R45). -/
  | init (n : Arg)
  /-- `OBS h`: observe the item whose hash value is `h` (41_observe rule R61). -/
  | obs (h : Arg)
  /-- `EST`: estimate the number of distinct items (42_estimate rule R71). It has no operand (rule R47). -/
  | est
  deriving DecidableEq, Repr

/-- The reserved command encodings, by name (30_encoding rule R50). -/
inductive Reserved where
  /-- `op = 2'b10` with an operand that is not zero. -/
  | estOperand (arg : Arg)
  /-- `op = 2'b11` with any operand. -/
  | opcodeThree (arg : Arg)
  deriving DecidableEq, Repr

/-- A line of the host's assembler (30_encoding rule R54) or one of its two pseudo-instructions (rule R55). -/
inductive AsmLine where
  /-- `INIT n`. -/
  | init (n : Nat)
  /-- `OBS v`. -/
  | obs (v : Nat)
  /-- `EST`. -/
  | est
  /-- `CMD o, v`, the raw form, and the only way to write a reserved encoding. -/
  | cmd (o v : Nat)
  /-- `OBSERVE "text"`. -/
  | observe (text : List Char)
  /-- `NEW n`, where `n` may carry a minus sign. -/
  | new (n : Int)
  deriving DecidableEq, Repr

end Sys2Proof
end

