-- ==== Sys2Proof/WellFormed.lean ====
section
/-! DEFINITION. Which command words are commands, by mask and match (30_encoding rule R53), and which assembler lines
stay inside their ranges (rules R54, R55). Every operand of a command is legal as an operand (rules R45, R46): the
range check of `INIT` is the command's own and raises cause 1. -/

namespace Sys2Proof

/-- A row of the mask and match table of 30_encoding rule R53. -/
structure EncodingRow where
  mask : CmdWord
  pattern : CmdWord
  deriving DecidableEq, Repr

/-- The word `w` matches the row: `w & mask = match` (rule R53). -/
def EncodingRow.matchesWord (r : EncodingRow) (w : CmdWord) : Bool := (w &&& r.mask) == r.pattern

/-- The row of a command (rule R53). -/
def Instr.row : Instr → EncodingRow
  | .init _ => ⟨0x30000000000000000#66, 0x00000000000000000#66⟩
  | .obs _ => ⟨0x30000000000000000#66, 0x10000000000000000#66⟩
  | .est => ⟨0x3FFFFFFFFFFFFFFFF#66, 0x20000000000000000#66⟩

/-- The three rows of the table, in its order. -/
def encodingTable : List EncodingRow := [(Instr.init 0).row, (Instr.obs 0).row, Instr.est.row]

/-- A word is a command exactly when it matches a row; any other word is reserved (rules R50, R53). -/
def CmdWord.wf (w : CmdWord) : Bool := encodingTable.any (·.matchesWord w)

/-- Every `Instr` is well formed: `INIT` and `OBS` take all `2^64` operands (rules R45, R46) and `EST` has none. -/
def Instr.wf : Instr → Bool
  | .init _ => true
  | .obs _ => true
  | .est => true

/-- The ranges of an assembler line's operands (rules R54, R55). A `NEW` operand is a 64-bit integer, signed or
unsigned (rule R45; DEDUCED, log entry 10). -/
def AsmLine.wf : AsmLine → Bool
  | .init n => n < 2 ^ 64
  | .obs v => v < 2 ^ 64
  | .est => true
  | .cmd o v => o ≤ 3 && v < 2 ^ 64
  | .observe _ => true
  | .new n => -(2 ^ 63) ≤ n && n < 2 ^ 64

end Sys2Proof
end

