-- ==== Sys2Proof/Decode.lean ====
section
/-! DEFINITION. The decoder, total on all `2^66` command words (30_encoding rule R53), then the encoder written from
the same table (rules R43, R44). -/

namespace Sys2Proof

/-- `cmd[65:64]`, the opcode (30_encoding rule R43). -/
def opField (w : CmdWord) : BitVec 2 := w.extractLsb' 64 2

/-- `cmd[63:0]`, the operand (30_encoding rule R43). -/
def argField (w : CmdWord) : Arg := w.extractLsb' 0 64

/-- `decode` of 30_encoding rule R53: a command, or the reserved encoding by name (rule R50). -/
def decode (w : CmdWord) : Except Reserved Instr :=
  let arg := argField w
  match (opField w).toNat with
  | 0 => .ok (.init arg)
  | 1 => .ok (.obs arg)
  | 2 => if arg = 0 then .ok .est else .error (.estOperand arg)
  | _ => .error (.opcodeThree arg)

/-- The word `{op, arg}` of rule R43. -/
def commandWord (op : BitVec 2) (arg : Arg) : CmdWord := op ++ arg

/-- The word of a command (30_encoding rules R43, R44, R47). -/
def encode : Instr → CmdWord
  | .init n => commandWord 0 n
  | .obs h => commandWord 1 h
  | .est => commandWord 2 0

/-- The command word held in the low `nbits` bits of `w`, with bit 0 least significant; bits above them are 0. `none`
where a bit above bit 65 is set, since a command word has no such bit (log entry 11). -/
def tableWord (nbits w : Nat) : Option CmdWord :=
  let v := w % 2 ^ nbits
  if v < 2 ^ 66 then some (BitVec.ofNat 66 v) else none

/-- The command the decoder reads from `w`, its bits numbered as spec/opcode_table.json numbers them; `none` where the
word is reserved. -/
def decodeTableWord (nbits w : Nat) : Option Instr :=
  match tableWord nbits w with
  | some c => (decode c).toOption
  | none => none

end Sys2Proof
end

