-- ==== Sys2Proof/Config.lean ====
section
/-! DEFINITION. What the spec leaves open, as constants with no body: a claim about the model holds whatever they are.
The open parameter `HASH64` of 92_eei_decisions, and the values that no rule states because no state reachable from
reset asks for them (42_estimate rules R74 and R89, 10_state rule R23). The other open parameter, `LN64`, carries its
four named properties and stands in Machine/Logarithm.lean as `Config.lnUnit`. The fixed parameters of 00_scope rule R5
stand here too. -/

namespace Sys2Proof

/-- The first eight bytes of the host's digest of a byte string, in output order (20_memory rules R34, R35, D9).
Free value, log entry 6. -/
opaque Config.digest : List Byte → Vector Byte 8

/-- What `f64` gives for a quotient `n / d` that is outside the range of the normal numbers: no rule states it, and
no `EST` of a reachable state asks (42_estimate rule R89). Free value, log entry 7. -/
opaque Config.roundOpen : (n d : Nat) → F64

/-- The binary64 operations of 00_scope rule R11. -/
inductive FloatOp where
  | mul
  | div
  | add
  deriving DecidableEq, Repr

/-- What an operation gives on operands rule R11 does not use it on (a sign bit, an infinity, a NaN, a zero divisor).
Free value, log entry 7. -/
opaque Config.operandOpen : FloatOp → F64 → F64 → F64

/-- What the comparison gives on operands that are not finite and non-negative. Free value, log entry 7. -/
opaque Config.compareOpen : F64 → F64 → Bool

/-- What `ALPHA_LUT` gives at an index outside 4 to 18: the table has fifteen entries (42_estimate rule R79).
Free value, log entry 8. -/
opaque Config.alphaOpen : BitVec 5 → F64

/-- What the scan adds to `ACC` for a cell above 60: no such cell exists in a reachable state (42_estimate rule R73,
10_state rule R23). Free value, log entry 9. -/
opaque Config.termOpen : Byte → Nat

/-- What `ACC` holds after a scan whose sum does not fit its 79 bits: "No rule defines what an overflow of `ACC` would
do" (42_estimate rule R74), and no reachable state has one. It depends on the sum. Free value, log entry 18. -/
opaque Config.accOpen : Nat → BitVec 79

/-- What `VCNT` holds after a scan whose count does not fit its 19 bits: no rule defines it, and no reachable state has
one (42_estimate rule R76). It depends on the count. Free value, log entry 18. -/
opaque Config.vcntOpen : Nat → BitVec 19

/-- `PMIN`: the least legal precision (00_scope rule R5). -/
def Config.pMin : Nat := 4

/-- `PMAX`: the greatest legal precision (00_scope rule R5). -/
def Config.pMax : Nat := 18

/-- `HASHW`: the width in bits of the hash value (00_scope rule R5). -/
def Config.hashWidth : Nat := 64

/-- `ACCFRAC`: the number of fraction bits of `ACC`, and so the greatest value of a cell (00_scope rule R5, C3). -/
def Config.accFrac : Nat := 60

end Sys2Proof
end

