-- ==== Sys2Proof/Machine/State.lean ====
section
/-! DEFINITION. The state of HLL-CLZ (10_state rule R15), the host's side of the run (10_state rule R17, 70_reset
rule R116), the reasons a step could stop, and the state after reset (10_state rule R25). -/

namespace Sys2Proof.Machine

/-- The register array, as the cells that do not hold 0: pairs of a cell index and its byte, indices strictly rising,
no byte 0. An index below `m` that is not listed holds 0, the value `INIT` writes (40_construct rule R57). Log entry 1. -/
abbrev Cells := List Host.Cell

/-- One thing the host does to the block (00_scope rule R7, 70_reset rule R111). -/
inductive HostMove where
  /-- Issue one command word. -/
  | command (w : CmdWord)
  /-- Assert and release `rst` between two commands (70_reset rules R105, R106). -/
  | reset
  deriving DecidableEq, Repr

/-- The state: the five elements of 10_state rule R15, then the host's side. -/
structure State where
  /-- `VALID`: an estimator has been constructed since reset (10_state rule R18). -/
  valid : Bool
  /-- `P`: the precision of the constructed estimator (10_state rule R19). -/
  p : BitVec 5
  /-- `REGS`: the register array (10_state rule R16); it exists only while `VALID = 1`. -/
  regs : Cells
  /-- `ACC`: `Z * 2^60` of the last `EST` (10_state rule R20). -/
  acc : BitVec 79
  /-- `VCNT`: the number of zero cells at the last `EST` (10_state rule R21). -/
  vcnt : BitVec 19
  /-- The moves the host has still to make, next first (10_state rule R17). The model's own field, log entry 2. -/
  stream : List HostMove
  /-- The index of the next move in the host's list (10_state rule R17). -/
  pos : Nat
  /-- The responses given so far, oldest first (70_reset rule R116). The model's own field, log entry 2. -/
  responses : List RspWord
  deriving DecidableEq, Repr

/-- Why a step stops. The spec gives the block no way to stop (70_reset rule R116); the one reason is an access the
spec says has no cell. -/
inductive Fault where
  /-- Raised by `execObs` when its access to the register array names no cell, that is with `VALID = 0` or at an
  index of `m` or more (20_memory rule R30). No command reaches it (rule R31). Safe: the model stops. Log entry 12. -/
  | noCell
  deriving DecidableEq, Repr

/-- Why the model gives no meaning. -/
inductive Refusal where
  /-- Raised by `exec` for an instruction that has no meaning yet; no arm uses it. Safe: the model stops. -/
  | notModelled (mnemonic : String)
  deriving DecidableEq, Repr

/-- The state after reset (10_state rule R25): `VALID`, `P`, `ACC` and `VCNT` are 0, and the array does not exist. The
host has no move to make and has received nothing (log entry 2). -/
def State.reset : State where
  valid := false
  p := 0
  regs := []
  acc := 0
  vcnt := 0
  stream := []
  pos := 0
  responses := []

end Sys2Proof.Machine
end

