-- ==== Sys2Proof/Machine/Ops.lean ====
section
/-! DEFINITION. The named operations on the state: the register array (20_memory rules R30, R36), the responses
(30_encoding rule R48), InvalidArgument (60_exceptions rules R91 to R99), reset (70_reset rule R105), and the
host's stream (10_state rule R17). -/

namespace Sys2Proof.Machine

/-! ### The register array -/

/-- `m = 2^P`, the number of cells (10_state rule R16). -/
def cellCount (p : BitVec 5) : Nat := 2 ^ p.toNat

/-- The byte a constructed array holds at `j`: the listed byte, or 0 where none is listed. -/
def cellAt : Cells → Nat → Byte
  | [], _ => 0
  | c :: cs, j => if c.1 = j then c.2 else cellAt cs j

/-- Put the byte `v` at `j`, keeping the list in its canonical form: writing 0 removes the entry. -/
def cellPut : Cells → Nat → Byte → Cells
  | [], j, v => if v = 0 then [] else [(j, v)]
  | c :: cs, j, v =>
    if j < c.1 then (if v = 0 then c :: cs else (j, v) :: c :: cs)
    else if j = c.1 then (if v = 0 then cs else (j, v) :: cs)
    else c :: cellPut cs j v

/-- The list's indices strictly rise, starting at `low` or above, and no listed byte is 0. -/
def Memory.wfFrom : Nat → Cells → Bool
  | _, [] => true
  | low, c :: cs => low ≤ c.1 && c.2 ≠ 0 && Memory.wfFrom (c.1 + 1) cs

/-- The canonical form of the register array. -/
def Memory.wf (cells : Cells) : Bool := Memory.wfFrom 0 cells

/-- The cell `j` exists: `VALID = 1` and `j < m` (20_memory rule R30). -/
def hasCell (s : State) (j : Nat) : Bool := s.valid && j < cellCount s.p

/-- `RegRead(j)` (20_memory rule R30); `none` where there is no such cell. -/
def regRead (s : State) (j : Nat) : Option Byte :=
  if hasCell s j then some (cellAt s.regs j) else none

/-- The state with the array `cells`. -/
def setCells (cells : Cells) (s : State) : State := { s with regs := cells }

/-- `RegWrite(j, v)` (20_memory rule R30); `none` where there is no such cell. -/
def regWrite (s : State) (j : Nat) (v : Byte) : Option State :=
  if hasCell s j then some (setCells (cellPut s.regs j v) s) else none

/-- Compare and raise, one atomic step (41_observe rule R68, 20_memory rule R36): write `rho` if it is greater than
the cell, otherwise write nothing. -/
def regRaise (s : State) (j rho : Nat) : Option State :=
  match regRead s j with
  | none => none
  | some cell => if cell.toNat < rho then regWrite s j (BitVec.ofNat 8 rho) else some s

/-! ### Construction and reset -/

/-- The writes of a successful `INIT n`: `P <- n[4:0]`, every one of the `2^n` cells 0, `VALID <- 1`
(40_construct rules R57, R59). `ACC` and `VCNT` are not written. -/
def construct (n : Arg) (s : State) : State :=
  { s with valid := true, p := n.setWidth 5, regs := [] }

/-- What `rst` does to the block, from any state (70_reset rule R105, 10_state rule R25). The host keeps its stream
and the responses it has received (log entry 4). -/
def resetBlock (s : State) : State :=
  { s with valid := false, p := 0, regs := [], acc := 0, vcnt := 0 }

/-! ### Responses -/

/-- The response `{1'b0, d}` (30_encoding rule R48). -/
def okWord (d : BitVec 64) : RspWord := 0#1 ++ d

/-- The response `{1'b1, zext_64(c)}` (30_encoding rule R48, 60_exceptions rule R92). -/
def errWord (code : BitVec 64) : RspWord := 1#1 ++ code

/-- Give the host one response word, after those it has. -/
def pushResponse (r : RspWord) (s : State) : State :=
  { s with responses := s.responses ++ [r] }

/-- `respond(d)` (00_scope rule R10): the command ends and its response is `{1'b0, d}`. -/
def respond (d : BitVec 64) (s : State) : Host.Outcome State Fault Refusal :=
  .next (pushResponse (okWord d) s)

/-- The causes of InvalidArgument (60_exceptions rule R92). -/
inductive Cause where
  /-- Cause 1: the operand of `INIT` is below 4 or above 18 (rule R93). -/
  | precisionOutOfRange
  /-- Cause 2: the word is a reserved encoding (rule R94). -/
  | reservedEncoding
  /-- Cause 3: `OBS` or `EST` with `VALID = 0` (rule R95). -/
  | noEstimator
  deriving DecidableEq, Repr

/-- The code of a cause (60_exceptions rule R92). -/
def causeCode : Cause → BitVec 64
  | .precisionOutOfRange => 1
  | .reservedEncoding => 2
  | .noEstimator => 3

/-- The response word of a cause (60_exceptions rule R92). -/
def causeWord (c : Cause) : RspWord := errWord (causeCode c)

/-- `raise InvalidArgument(c)`, the one error entry, shared by every command: the command ends, changes no state, and
its response carries the cause (60_exceptions rules R91, R98). Nothing is saved and nothing is sticky (rule R99), so
there is no return beside it: the next command runs as if this one had not been issued. -/
def raiseInvalidArgument (c : Cause) (s : State) : Host.Outcome State Fault Refusal :=
  .next (pushResponse (causeWord c) s)

/-! ### The host's stream -/

/-- The host's next move, if it has one. -/
def nextMove (s : State) : Option HostMove := s.stream.head?

/-- Take the next move from the stream; the index moves by exactly 1 (10_state rule R17). -/
def advance (s : State) : State :=
  { s with stream := s.stream.tail, pos := s.pos + 1 }

/-- The host issues the command word `w` next, in place of its next move. -/
def placeNext (w : CmdWord) (s : State) : State :=
  { s with stream := .command w :: s.stream.tail }

end Sys2Proof.Machine
end

