-- ==== Sys2Proof/Machine/Operands.lean ====
section
/-! DEFINITION. The operand forms: the range check of `INIT` (40_construct rule R58), and the split of the hash value
and its leading-zero count (41_observe rules R62 to R66). -/

namespace Sys2Proof.Machine

/-- The range check of `INIT` on all 64 bits of the operand, unsigned (40_construct rule R58). -/
def precisionInRange (n : Arg) : Bool := Config.pMin ≤ n.toNat && n.toNat ≤ Config.pMax

/-- `clz_N(v)`: the leading zero bits of `v` in a field of `N` bits, for `v < 2^N` (00_scope rule R9). -/
def clzField (N v : Nat) : Nat := if v = 0 then N else N - 1 - floorLog2 v

/-- `W = 64 - p`, the width of the residual (00_scope rule R5). -/
def residualWidth (p : BitVec 5) : Nat := Config.hashWidth - p.toNat

/-- The register index `j = h[p-1:0] = h & (m - 1)` (41_observe rule R62). -/
def hashIndex (p : BitVec 5) (h : Arg) : Nat := h.toNat % cellCount p

/-- The residual `w = h[63:p] = h >> p` (41_observe rule R63). -/
def hashResidual (p : BitVec 5) (h : Arg) : Nat := h.toNat >>> p.toNat

/-- `rho = min(clz_W(w) + 1, W)`: the 1-based position of the most-significant 1 bit of the residual, and `W` for an
all-zero residual (41_observe rule R65, 90_conflicts C1 and C2). -/
def rhoOf (W w : Nat) : Nat := min (clzField W w + 1) W

/-- `rho` of a hash value at precision `p` (41_observe rules R63, R65). -/
def hashRho (p : BitVec 5) (h : Arg) : Nat := rhoOf (residualWidth p) (hashResidual p h)

end Sys2Proof.Machine
end

