-- ==== Sys2Proof/Machine/Construct.lean ====
section
/-! DEFINITION. Construction: `INIT` (40_construct rules R57 to R60). -/

namespace Sys2Proof.Machine

/-- `INIT n` (40_construct rule R57): the range check, then the new estimator and the response 0. It is legal in every
state, a constructed one included (rule R59); a failure raises cause 1 and changes nothing (rule R60). -/
def execInit (n : Arg) (s : State) : Host.Outcome State Fault Refusal :=
  if precisionInRange n then respond 0 (construct n s)
  else raiseInvalidArgument .precisionOutOfRange s

end Sys2Proof.Machine
end

