-- ==== Sys2Proof/Machine/Flags.lean ====
section
/-! DEFINITION. The flags. The block's one status flag is `VALID` (10_state rule R18); `err` is a bit of a response and
not state. No command computes a carry, overflow, zero or sign flag (10_state rule R18). -/

namespace Sys2Proof.Machine

/-- Run `body` when `VALID = 1`; with `VALID = 0` raise cause 3 and do nothing else (10_state rule R18, 60_exceptions
rule R95). The check comes before any write (rules R97, R98). -/
def whenConstructed (s : State) (body : State → Host.Outcome State Fault Refusal) :
    Host.Outcome State Fault Refusal :=
  if s.valid then body s else raiseInvalidArgument .noEstimator s

/-- The `err` bit of a response, bit 64 (30_encoding rule R48). -/
def errBit (r : RspWord) : Bool := r.getMsbD 0

/-- The `data` field of a response, bits 63:0 (30_encoding rule R48). -/
def dataField (r : RspWord) : BitVec 64 := r.extractLsb' 0 64

end Sys2Proof.Machine
end

