-- ==== Sys2Proof/Machine/Binary64.lean ====
section
/-! DEFINITION. The binary64 primitives of 00_scope rule R11 in exact integer arithmetic, each rounding once, to nearest
with ties to even (D8), by the algorithms of 42_estimate rules R77 and R82. On operands rule R11 does not use them on
the result is a free value (log entry 7). -/

namespace Sys2Proof.Machine

/-! ### The value of a word -/

/-- Bits 62:52, the biased exponent (00_scope rule R11). -/
def f64Exponent (a : F64) : Nat := (a.extractLsb' 52 11).toNat

/-- Bits 51:0, the fraction (00_scope rule R11). -/
def f64Fraction (a : F64) : Nat := (a.extractLsb' 0 52).toNat

/-- The word is finite and its sign bit is 0. -/
def f64Proper (a : F64) : Bool := a.toNat < 0x7FF0000000000000

/-- The word is a positive normal number. -/
def f64PosNormal (a : F64) : Bool := 0x0010000000000000 ≤ a.toNat && f64Proper a

/-- The significand as an integer, with the hidden bit of a normal number. -/
def f64Significand (a : F64) : Nat :=
  if f64Exponent a = 0 then f64Fraction a else 2 ^ 52 + f64Fraction a

/-- The power of two the significand is scaled by: a proper word's value is `significand * 2^power`. -/
def f64Power (a : F64) : Int := max (f64Exponent a) 1 - 1075

/-- The value of a proper word, an exact rational (00_scope rule R11). -/
def f64Value (a : F64) : ℚ := f64Significand a * (2 : ℚ) ^ f64Power a

/-- The word with sign 0, exponent `e` (unbiased) and 53-bit significand `q`, `2^52 <= q < 2^53`: biased exponent
`e + 1023`, fraction `q - 2^52`, which is the low 52 bits of `q` (42_estimate rules R77, R82). -/
def f64Pack (e : Int) (q : Nat) : F64 :=
  BitVec.ofNat 64 (2 ^ 52 * (e + 1023).toNat + q % 2 ^ 52)

/-! ### Rounding -/

/-- The integer nearest `num / den`, ties to even (42_estimate rule R82). -/
def roundHalfEven (num den : Nat) : Nat :=
  let q0 := num / den
  let r := num % den
  if den < 2 * r ∨ (2 * r = den ∧ q0 % 2 = 1) then q0 + 1 else q0

/-- `2^e <= n / d`, for positive `n` and `d`. -/
def powLeRatio (e : Int) (n d : Nat) : Bool :=
  if 0 ≤ e then d * 2 ^ e.toNat ≤ n else d ≤ n * 2 ^ (-e).toNat

/-- The integer `e` with `2^e <= n / d < 2^(e+1)`, for positive `n` and `d` (42_estimate rule R82). -/
def ratioExponent (n d : Nat) : Int :=
  let e : Int := floorLog2 n - floorLog2 d
  if powLeRatio e n d then e else e - 1

/-- The rounded significand of `n / d` at exponent `e`, with the carry to the next exponent (42_estimate rule R82). -/
def roundedAt (e : Int) (n d : Nat) : Int × Nat :=
  let s : Int := 52 - e
  let q := if 0 ≤ s then roundHalfEven (n * 2 ^ s.toNat) d else roundHalfEven n (d * 2 ^ (-s).toNat)
  if q = 2 ^ 53 then (e + 1, 2 ^ 52) else (e, q)

/-- `f64_rat(n, d)`: the binary64 nearest the positive rational `n / d` (42_estimate rule R82), stated for values in
the normal range; outside it a free value. -/
def f64Rat (n d : Nat) : F64 :=
  let eq := roundedAt (ratioExponent n d) n d
  if -1022 ≤ eq.1 ∧ eq.1 ≤ 1023 then f64Pack eq.1 eq.2 else Config.roundOpen n d

/-- `f64(n / d)` for `n >= 0` and `d > 0` (00_scope rule R11): `+0.0` for the value 0. -/
def f64Of (n d : Nat) : F64 := if n = 0 then 0 else f64Rat n d

/-- `cvt(A)`: `f64(A / 2^60)` as the algorithm of 42_estimate rule R77 on the integer `A > 0`; `+0.0` for 0. -/
def cvt (A : Nat) : F64 :=
  let k := floorLog2 A
  if A = 0 then 0
  else if k ≤ 52 then f64Pack ((k : Int) - 60) (A <<< (52 - k))
  else
    let s := k - 52
    let q0 := A >>> s
    let rem := A % 2 ^ s
    let half := 2 ^ (s - 1)
    let q := if half < rem ∨ (rem = half ∧ q0 % 2 = 1) then q0 + 1 else q0
    if q = 2 ^ 53 then f64Pack ((k : Int) + 1 - 60) (2 ^ 52) else f64Pack ((k : Int) - 60) q

/-- `f64((n / d) * 2^k)`, with the power of two taken into the quotient exactly. -/
def f64Scaled (k : Int) (n d : Nat) : F64 :=
  if 0 ≤ k then f64Of (n * 2 ^ k.toNat) d else f64Of n (d * 2 ^ (-k).toNat)

/-! ### The operations -/

/-- `fmul(a, b) = f64(a * b)` (00_scope rule R11). -/
def fmul (a b : F64) : F64 :=
  if f64Proper a && f64Proper b then
    f64Scaled (f64Power a + f64Power b) (f64Significand a * f64Significand b) 1
  else Config.operandOpen .mul a b

/-- `fdiv(a, b) = f64(a / b)`, for `b > 0` finite (00_scope rule R11). -/
def fdiv (a b : F64) : F64 :=
  if f64Proper a && f64Proper b && f64Significand b ≠ 0 then
    f64Scaled (f64Power a - f64Power b) (f64Significand a) (f64Significand b)
  else Config.operandOpen .div a b

/-- `fadd(a, b) = f64(a + b)`, used only to define the table (00_scope rule R11). -/
def fadd (a b : F64) : F64 :=
  if f64Proper a && f64Proper b then
    let k := min (f64Power a) (f64Power b)
    f64Scaled k (f64Significand a * 2 ^ (f64Power a - k).toNat + f64Significand b * 2 ^ (f64Power b - k).toNat) 1
  else Config.operandOpen .add a b

/-- `fle(a, b)`: `a <= b` as real numbers (00_scope rule R11). The values of proper words are ordered as the words. -/
def fle (a b : F64) : Bool :=
  if f64Proper a && f64Proper b then a.toNat ≤ b.toNat else Config.compareOpen a b

end Sys2Proof.Machine
end

