-- ==== Sys2Proof/Laws/Binary64.lean ====
section
/-! SUPPORT. The values of binary64 words: their order is the order of the words, and a packed word has the value it
was packed for. -/

namespace Sys2Proof.Machine

/-- The value of a word with sign 0 as a multiple of `2^-1074`, the least positive value. -/
def unitsOf (w : Nat) : Nat :=
  (if w / 2 ^ 52 = 0 then w % 2 ^ 52 else 2 ^ 52 + w % 2 ^ 52) * 2 ^ (w / 2 ^ 52 - 1)

/-- The next word is one unit in the last place above. -/
theorem unitsOf_succ (w : Nat) : unitsOf (w + 1) = unitsOf w + 2 ^ (w / 2 ^ 52 - 1) := by
  unfold unitsOf
  by_cases hf : w % 2 ^ 52 + 1 < 2 ^ 52
  · have h1 : (w + 1) / 2 ^ 52 = w / 2 ^ 52 := by omega
    have h2 : (w + 1) % 2 ^ 52 = w % 2 ^ 52 + 1 := by omega
    rw [h1, h2]
    split <;> ring
  · have h1 : (w + 1) / 2 ^ 52 = w / 2 ^ 52 + 1 := by omega
    have h2 : (w + 1) % 2 ^ 52 = 0 := by omega
    have h3 : w % 2 ^ 52 = 2 ^ 52 - 1 := by omega
    rw [h1, h2, h3, if_neg (by omega)]
    by_cases he : w / 2 ^ 52 = 0
    · rw [if_pos he, he]
      norm_num
    · obtain ⟨k, hk⟩ : ∃ k, w / 2 ^ 52 = k + 1 := ⟨w / 2 ^ 52 - 1, by omega⟩
      rw [hk, if_neg (by omega), Nat.add_sub_cancel, Nat.add_sub_cancel, pow_succ 2 k]
      ring

theorem unitsOf_strictMono : StrictMono unitsOf :=
  strictMono_nat_of_lt_succ fun w => by
    rw [unitsOf_succ]
    exact Nat.lt_add_of_pos_right (Nat.two_pow_pos _)

theorem f64Exponent_eq {a : F64} (h : a.toNat < 2 ^ 63) : f64Exponent a = a.toNat / 2 ^ 52 := by
  rw [f64Exponent, BitVec.extractLsb'_toNat, Nat.shiftRight_eq_div_pow]
  exact Nat.mod_eq_of_lt (by omega)

theorem f64Fraction_eq (a : F64) : f64Fraction a = a.toNat % 2 ^ 52 := by
  rw [f64Fraction, BitVec.extractLsb'_toNat, Nat.shiftRight_zero]

theorem f64Proper_iff {a : F64} : f64Proper a = true ↔ a.toNat < 0x7FF0000000000000 := by
  simp [f64Proper]

theorem f64PosNormal_iff {a : F64} :
    f64PosNormal a = true ↔ 0x0010000000000000 ≤ a.toNat ∧ a.toNat < 0x7FF0000000000000 := by
  simp [f64PosNormal, f64Proper]

/-- The value of a word with sign 0, in units of `2^-1074`. -/
theorem f64Value_eq_units {a : F64} (h : a.toNat < 2 ^ 63) :
    f64Value a = unitsOf a.toNat * (2 : ℚ) ^ (-1074 : Int) := by
  have hpow : ∀ k : Nat, (2 : ℚ) ^ (((max k 1 : Nat) : Int) - 1075) = 2 ^ (k - 1) * (2 : ℚ) ^ (-1074 : Int) := by
    intro k
    rw [← zpow_natCast, ← zpow_add₀ (by norm_num)]
    congr 1
    omega
  unfold f64Value unitsOf f64Significand f64Power
  rw [f64Exponent_eq h, f64Fraction_eq, hpow]
  rw [Nat.cast_mul, Nat.cast_pow, mul_assoc]
  rfl

/-- The values of two words with sign 0 are ordered as the words. -/
theorem f64Value_le_iff {a b : F64} (ha : a.toNat < 2 ^ 63) (hb : b.toNat < 2 ^ 63) :
    f64Value a ≤ f64Value b ↔ a.toNat ≤ b.toNat := by
  rw [f64Value_eq_units ha, f64Value_eq_units hb, mul_le_mul_iff_left₀ (by positivity), Nat.cast_le,
    unitsOf_strictMono.le_iff_le]

/-- Two proper words with one value are one word. -/
theorem f64Value_inj {a b : F64} (ha : f64Proper a = true) (hb : f64Proper b = true) (h : f64Value a = f64Value b) :
    a = b := by
  have ha' := f64Proper_iff.1 ha
  have hb' := f64Proper_iff.1 hb
  exact BitVec.eq_of_toNat_eq (le_antisymm ((f64Value_le_iff (by omega) (by omega)).1 h.le)
    ((f64Value_le_iff (by omega) (by omega)).1 h.ge))

theorem f64Value_nonneg (a : F64) : 0 ≤ f64Value a := by
  unfold f64Value
  positivity

/-- `fle` compares values (00_scope rule R11). -/
theorem fle_iff_value {a b : F64} (ha : f64Proper a = true) (hb : f64Proper b = true) :
    fle a b = true ↔ f64Value a ≤ f64Value b := by
  have ha' := f64Proper_iff.1 ha
  have hb' := f64Proper_iff.1 hb
  rw [f64Value_le_iff (by omega) (by omega)]
  simp [fle, ha, hb]

/-! ### Packed words -/

theorem f64Pack_toNat {e : Int} {q : Nat} (he : -1022 ≤ e) (he' : e ≤ 1023) (hq : 2 ^ 52 ≤ q) (hq' : q < 2 ^ 53) :
    (f64Pack e q).toNat = 2 ^ 52 * (e + 1023).toNat + (q - 2 ^ 52) := by
  have h1 : (e + 1023).toNat ≤ 2046 := by omega
  have h2 : q % 2 ^ 52 = q - 2 ^ 52 := by omega
  rw [f64Pack, BitVec.toNat_ofNat, h2]
  exact Nat.mod_eq_of_lt (by omega)

theorem f64PosNormal_pack {e : Int} {q : Nat} (he : -1022 ≤ e) (he' : e ≤ 1023) (hq : 2 ^ 52 ≤ q) (hq' : q < 2 ^ 53) :
    f64PosNormal (f64Pack e q) = true := by
  rw [f64PosNormal_iff, f64Pack_toNat he he' hq hq']
  omega

/-- A packed word has the value `q * 2^(e - 52)`. -/
theorem f64Value_pack {e : Int} {q : Nat} (he : -1022 ≤ e) (he' : e ≤ 1023) (hq : 2 ^ 52 ≤ q) (hq' : q < 2 ^ 53) :
    f64Value (f64Pack e q) = q * (2 : ℚ) ^ (e - 52) := by
  have hn := f64Pack_toNat he he' hq hq'
  have hlt : (f64Pack e q).toNat < 2 ^ 63 := by omega
  have hx : f64Exponent (f64Pack e q) = (e + 1023).toNat := by
    rw [f64Exponent_eq hlt]
    omega
  have hf : f64Fraction (f64Pack e q) = q - 2 ^ 52 := by
    rw [f64Fraction_eq]
    omega
  have hs : f64Significand (f64Pack e q) = q := by
    unfold f64Significand
    rw [hx, hf, if_neg (by omega)]
    omega
  unfold f64Value f64Power
  rw [hs, hx]
  congr 2
  omega

end Sys2Proof.Machine
end

