-- ==== Sys2Proof/Machine/LogUnit.lean ====
section
/-! DEFINITION. What a logarithm unit is: a function with the four named properties of 42_estimate rule R85, the
correctly rounded instance of that rule, and a computable reference function (Laws/LogUnit.lean proves that it has the
four properties, so that a unit exists). -/

namespace Sys2Proof.Machine

/-! ### The domain -/

/-- The word of 1.0. -/
def f64One : F64 := 0x3FF0000000000000

/-- The word of `2^18`. -/
def f64TwoPow18 : F64 := 0x4110000000000000

/-- `1.0 <= a <= 2^18`, the arguments `EST` calls the logarithm on (42_estimate rules R84, R85). The values of proper
words are ordered as the words. -/
def lnDomain (a : F64) : Bool := f64One.toNat ≤ a.toNat && a.toNat ≤ f64TwoPow18.toNat

/-! ### The named properties (42_estimate rule R85) -/

/-- `LN64_one`: the logarithm of 1.0 is `+0.0`. -/
def LnOne (ln : F64 → F64) : Prop := ln f64One = 0

/-- `LN64_pos`: for `1.0 < a <= 2^18` the result is finite, positive and normal. -/
def LnPos (ln : F64 → F64) : Prop := ∀ a, lnDomain a → a ≠ f64One → f64PosNormal (ln a)

/-- `LN64_mono`: for `1.0 <= a <= b <= 2^18`, `LN64(a) <= LN64(b)`. -/
def LnMono (ln : F64 → F64) : Prop :=
  ∀ a b, lnDomain a → lnDomain b → f64Value a ≤ f64Value b → f64Value (ln a) ≤ f64Value (ln b)

/-- `L` is the real number `x`, or one of the two binary64 values nearest `x` on either side of it: `L <= x <` the
next value above `L`, or the value below `L` `< x <= L`. -/
def FaithfulTo (x : ℝ) (L : F64) : Prop :=
  ((f64Value L : ℝ) ≤ x ∧ x < (f64Value (L + 1) : ℝ)) ∨
    (L ≠ 0 ∧ (f64Value (L - 1) : ℝ) < x ∧ x ≤ (f64Value L : ℝ))

/-- `LN64_faithful`: for `1.0 < a <= 2^18` the result is a proper word faithful to the real `ln(a)`. -/
def LnFaithful (ln : F64 → F64) : Prop :=
  ∀ a, lnDomain a → a ≠ f64One → f64Proper (ln a) ∧ FaithfulTo (Real.log (f64Value a)) (ln a)

/-- A logarithm unit: a function from words to words with the four named properties of 42_estimate rule R85. -/
structure LnUnit where
  /-- `LN64` itself, total on all words. -/
  fn : F64 → F64
  /-- `LN64_one`. -/
  one : LnOne fn
  /-- `LN64_pos`. -/
  pos : LnPos fn
  /-- `LN64_mono`. -/
  mono : LnMono fn
  /-- `LN64_faithful`. -/
  faithful : LnFaithful fn

/-! ### The correctly rounded instance `LN64_cr` -/

/-- `L = f64(x)` for a real `x >= 0` (00_scope rule R11): no proper word is nearer to `x` than `L`, and of two as near
`L` is the one whose last bit is 0. -/
def RoundsTo (x : ℝ) (L : F64) : Prop :=
  f64Proper L ∧
    ∀ v : F64, f64Proper v → |(f64Value L : ℝ) - x| ≤ |(f64Value v : ℝ) - x| ∧
      (v ≠ L → |(f64Value L : ℝ) - x| = |(f64Value v : ℝ) - x| → L.toNat % 2 = 0)

/-- `ln` is the reference instance of 42_estimate rule R85 on the domain: `LN64_cr(a) = f64(ln(a))`. -/
def LnCorrectlyRounded (ln : F64 → F64) : Prop :=
  ∀ a, lnDomain a → RoundsTo (Real.log (f64Value a)) (ln a)

/-! ### A function with the four properties, that can be run -/

/-- The first `n` terms of the exponential series at `y`. -/
def expTerms (y : ℚ) : Nat → ℚ
  | 0 => 0
  | n + 1 => expTerms y n + y ^ n / n.factorial

/-- The word `w` is at most 32.0 and the 32nd power of the series at `w / 32` is at most the value of `a`: the exact test
`w <= ln(a)` up to the error of the series. -/
def lnTest (a : F64) (w : Nat) : Bool :=
  w ≤ 0x4040000000000000 && expTerms (f64Value (BitVec.ofNat 64 w) / 32) 32 ^ 32 ≤ f64Value a

/-- The greatest number that passes the test, among the numbers from `acc` that set bits below bit `k`, for a test that
holds at `acc` and below every number it holds at. -/
def greatestBelow (test : Nat → Bool) : Nat → Nat → Nat
  | 0, acc => acc
  | k + 1, acc => greatestBelow test k (if test (acc + 2 ^ k) then acc + 2 ^ k else acc)

/-- The greatest word that passes the test, on the domain above 1.0, and `+0.0` elsewhere. -/
def lnReferenceFn (a : F64) : F64 :=
  if lnDomain a ∧ a ≠ f64One then BitVec.ofNat 64 (greatestBelow (lnTest a) 63 0) else 0

end Sys2Proof.Machine
end

