-- ==== Sys2Proof/Laws/LogUnit.lean ====
section
/-! SUPPORT. The reference function of Machine/LogUnit.lean has the four named properties of 42_estimate rule R85: the
test of a word against the logarithm errs by less than `2^-107`, which is below half a unit in the last place of every
result. The real logarithm on the domain, and the greatest word below a real number, stand here too. -/

namespace Sys2Proof.Machine

/-! ### The domain, and words below a real number -/

/-- The greatest finite word. -/
def f64Max : Nat := 0x7FEFFFFFFFFFFFFF

theorem value_ofNat {w : Nat} (h : w < 2 ^ 63) :
    f64Value (BitVec.ofNat 64 w) = unitsOf w * (2 : ℚ) ^ (-1074 : Int) := by
  have hw : (BitVec.ofNat 64 w).toNat = w := by
    rw [BitVec.toNat_ofNat]
    exact Nat.mod_eq_of_lt (by omega)
  rw [f64Value_eq_units (by omega), hw]

theorem lnDomain_iff {a : F64} :
    lnDomain a = true ↔ 0x3FF0000000000000 ≤ a.toNat ∧ a.toNat ≤ 0x4110000000000000 := by
  simp [lnDomain, f64One, f64TwoPow18]

theorem f64Value_f64One : f64Value f64One = 1 := by
  have h1 : f64Significand f64One = 2 ^ 52 := by decide
  have h2 : f64Power f64One = -52 := by decide
  rw [f64Value, h1, h2]
  norm_num [zpow_neg]

theorem f64Value_f64TwoPow18 : f64Value f64TwoPow18 = 2 ^ 18 := by
  have h1 : f64Significand f64TwoPow18 = 2 ^ 52 := by decide
  have h2 : f64Power f64TwoPow18 = -34 := by decide
  rw [f64Value, h1, h2]
  norm_num [zpow_neg]

/-- The word just above 1.0 has the value `1 + 2^-52`. -/
theorem f64Value_aboveOne : f64Value 0x3FF0000000000001 = 1 + 1 / 2 ^ 52 := by
  have h1 : f64Significand 0x3FF0000000000001 = 2 ^ 52 + 1 := by decide
  have h2 : f64Power 0x3FF0000000000001 = -52 := by decide
  rw [f64Value, h1, h2]
  norm_num [zpow_neg]

theorem f64Value_twoPowNeg53 : f64Value 0x3CA0000000000000 = 1 / 2 ^ 53 := by
  have h1 : f64Significand 0x3CA0000000000000 = 2 ^ 52 := by decide
  have h2 : f64Power 0x3CA0000000000000 = -105 := by decide
  rw [f64Value, h1, h2]
  norm_num [zpow_neg]

theorem value_bounds_of_domain {a : F64} (h : lnDomain a = true) (h1 : a ≠ f64One) :
    1 + 1 / 2 ^ 52 ≤ f64Value a ∧ f64Value a ≤ 2 ^ 18 := by
  have hd := lnDomain_iff.1 h
  have hne : a.toNat ≠ 0x3FF0000000000000 := fun he => h1 (BitVec.eq_of_toNat_eq (by rw [he]; rfl))
  constructor
  · rw [← f64Value_aboveOne, f64Value_le_iff (by decide) (by omega)]
    exact Nat.lt_of_le_of_ne hd.1 hne.symm
  · rw [← f64Value_f64TwoPow18, f64Value_le_iff (by omega) (by decide)]
    exact hd.2

/-- The real logarithm of an argument above 1 lies between `2^-53` and `2^18`. -/
theorem log_bounds_of_domain {a : F64} (h : lnDomain a = true) (h1 : a ≠ f64One) :
    1 / (2 : ℝ) ^ 53 ≤ Real.log (f64Value a) ∧ Real.log (f64Value a) < 2 ^ 18 := by
  obtain ⟨hlo, hhi⟩ := value_bounds_of_domain h h1
  have hlo' : (1 : ℝ) + 1 / 2 ^ 52 ≤ (f64Value a : ℝ) := by
    have := (Rat.cast_le (K := ℝ)).2 hlo
    push_cast at this
    exact this
  have hhi' : (f64Value a : ℝ) ≤ 2 ^ 18 := by exact_mod_cast hhi
  have hpos : (0 : ℝ) < (f64Value a : ℝ) := lt_of_lt_of_le (by positivity) hlo'
  constructor
  · have hinv : 1 - ((f64Value a : ℝ))⁻¹ ≤ Real.log (f64Value a) := Real.one_sub_inv_le_log_of_pos hpos
    have hle : ((f64Value a : ℝ))⁻¹ ≤ (1 + 1 / 2 ^ 52)⁻¹ := inv_anti₀ (by positivity) hlo'
    have hnum : 1 / (2 : ℝ) ^ 53 ≤ 1 - (1 + 1 / 2 ^ 52)⁻¹ := by norm_num
    linarith
  · have := Real.log_le_sub_one_of_pos hpos
    linarith

open Classical in
/-- The greatest finite non-negative word whose value is at most `x`. -/
theorem exists_floor_word (x : ℝ) (hx : 0 ≤ x) (hx' : x < 2 ^ 18) :
    ∃ w ≤ f64Max, (f64Value (BitVec.ofNat 64 w) : ℝ) ≤ x ∧
      ∀ v, v < 2 ^ 63 → ((f64Value (BitVec.ofNat 64 v) : ℝ) ≤ x ↔ v ≤ w) := by
  let P : Nat → Prop := fun w => (f64Value (BitVec.ofNat 64 w) : ℝ) ≤ x
  have h0 : P 0 := by
    have : f64Value (BitVec.ofNat 64 0) = 0 := by
      rw [value_ofNat (by norm_num)]
      simp [unitsOf]
    simpa [P, this] using hx
  have hle := Nat.findGreatest_le (P := P) f64Max
  have hspec : P (Nat.findGreatest P f64Max) := Nat.findGreatest_spec (Nat.zero_le _) h0
  have hmono : ∀ v w, v ≤ w → w < 2 ^ 63 → P w → P v := by
    intro v w hvw hw hP
    refine le_trans ?_ hP
    rw [value_ofNat hw, value_ofNat (by omega)]
    have : unitsOf v ≤ unitsOf w := unitsOf_strictMono.monotone hvw
    exact_mod_cast mul_le_mul_of_nonneg_right (Nat.cast_le.2 this) (by positivity)
  refine ⟨_, hle, hspec, fun v hv => ⟨fun hP => ?_, fun h => hmono v _ h (lt_of_le_of_lt hle (by decide)) hspec⟩⟩
  by_contra hgt
  rcases Nat.lt_or_ge f64Max v with hbig | hsmall
  · have hbound : P 0x4110000000000000 := hmono _ v (by unfold f64Max at hbig; omega) hv hP
    have h18 : f64Value (BitVec.ofNat 64 0x4110000000000000) = 2 ^ 18 := f64Value_f64TwoPow18
    simp only [P, h18] at hbound
    push_cast at hbound
    linarith
  · exact Nat.findGreatest_is_greatest (not_le.1 hgt) hsmall hP

/-- The values of words below `2^63` are ordered as the words. -/
theorem value_ofNat_le_iff {v w : Nat} (hv : v < 2 ^ 63) (hw : w < 2 ^ 63) :
    f64Value (BitVec.ofNat 64 v) ≤ f64Value (BitVec.ofNat 64 w) ↔ v ≤ w := by
  rw [value_ofNat hv, value_ofNat hw, mul_le_mul_iff_left₀ (by positivity), Nat.cast_le, unitsOf_strictMono.le_iff_le]

theorem toNat_ofNat_of_lt {w : Nat} (h : w < 2 ^ 63) : (BitVec.ofNat 64 w : F64).toNat = w := by
  rw [BitVec.toNat_ofNat]
  exact Nat.mod_eq_of_lt (by omega)

theorem one_le_value_of_domain {a : F64} (h : lnDomain a = true) : 1 ≤ f64Value a := by
  have hd := lnDomain_iff.1 h
  rw [← f64Value_f64One, f64Value_le_iff (by decide) (by omega)]
  exact hd.1

theorem one_le_real_of_domain {a : F64} (h : lnDomain a = true) : (1 : ℝ) ≤ f64Value a := by
  exact_mod_cast one_le_value_of_domain h

theorem value_le_of_domain {a : F64} (h : lnDomain a = true) : (f64Value a : ℝ) ≤ 2 ^ 18 := by
  have hd := lnDomain_iff.1 h
  have : f64Value a ≤ f64Value f64TwoPow18 := (f64Value_le_iff (by omega) (by decide)).2 hd.2
  rw [f64Value_f64TwoPow18] at this
  exact_mod_cast this

/-- Every logarithm on the domain is below `12.6`. -/
theorem log_lt_of_domain {a : F64} (h : lnDomain a = true) : Real.log (f64Value a) < 126 / 10 := by
  have h1 : Real.log (f64Value a) ≤ Real.log (2 ^ 18) :=
    Real.log_le_log (lt_of_lt_of_le one_pos (one_le_real_of_domain h)) (value_le_of_domain h)
  have h2 := Real.log_two_lt_d9
  rw [Real.log_pow] at h1
  push_cast at h1
  linarith

/-! ### The exponential series -/

theorem expTerms_cast (y : ℚ) (n : Nat) :
    (expTerms y n : ℝ) = ∑ m ∈ Finset.range n, (y : ℝ) ^ m / (m.factorial : ℝ) := by
  induction n with
  | zero => simp [expTerms]
  | succ n ih => rw [expTerms, Finset.sum_range_succ, ← ih]; push_cast; rfl

theorem expTerms_mono {x y : ℚ} (hx : 0 ≤ x) (hxy : x ≤ y) (n : Nat) : expTerms x n ≤ expTerms y n := by
  induction n with
  | zero => exact le_rfl
  | succ n ih => simp only [expTerms]; gcongr

theorem expTerms_zero (n : Nat) : expTerms 0 (n + 1) = 1 := by
  induction n with
  | zero => simp [expTerms]
  | succ n ih => rw [expTerms, ih]; simp

theorem one_le_expTerms {y : ℚ} (hy : 0 ≤ y) (n : Nat) : 1 ≤ expTerms y (n + 1) := by
  rw [← expTerms_zero n]
  exact expTerms_mono le_rfl hy _

theorem expTerms_le_exp {y : ℚ} (hy : 0 ≤ y) (n : Nat) : (expTerms y n : ℝ) ≤ Real.exp y := by
  rw [expTerms_cast]
  exact Real.sum_le_exp_of_nonneg (by exact_mod_cast hy) n

/-- The series with 32 terms falls short of the exponential by a factor of at most `exp (2^-112)`. -/
theorem exp_le_expTerms {y : ℚ} (hy : 0 ≤ y) (hy1 : y ≤ 1) :
    Real.exp y ≤ expTerms y 32 * Real.exp (1 / 2 ^ 112) := by
  have hy' : (0 : ℝ) ≤ y := by exact_mod_cast hy
  have hy1' : (y : ℝ) ≤ 1 := by exact_mod_cast hy1
  have hb := Real.exp_bound' hy' hy1' (n := 32) (by norm_num)
  rw [← expTerms_cast] at hb
  have hS : (1 : ℝ) ≤ expTerms y 32 := by exact_mod_cast one_le_expTerms hy 31
  have hp : (y : ℝ) ^ 32 ≤ 1 := pow_le_one₀ hy' hy1'
  have hpos : (0 : ℝ) ≤ (y : ℝ) ^ 32 := by positivity
  have herr : (y : ℝ) ^ 32 * ((32 : ℕ) + 1) / ((32 : ℕ).factorial * (32 : ℕ)) ≤ 1 / 2 ^ 112 := by
    have hf : (32 : ℕ).factorial = 263130836933693530167218012160000000 := by decide
    rw [hf]
    push_cast
    rw [div_le_div_iff₀ (by norm_num) (by norm_num)]
    nlinarith
  have hexp : (1 : ℝ) + 1 / 2 ^ 112 ≤ Real.exp (1 / 2 ^ 112) := by
    have := Real.add_one_le_exp ((1 : ℝ) / 2 ^ 112)
    linarith
  calc Real.exp y ≤ expTerms y 32 + 1 / 2 ^ 112 := le_trans hb (by linarith)
    _ ≤ expTerms y 32 * (1 + 1 / 2 ^ 112) := by nlinarith
    _ ≤ expTerms y 32 * Real.exp (1 / 2 ^ 112) := by gcongr

/-- The 32nd power of the series at `x / 32` is below the exponential of `x`. -/
theorem expTerms_pow_le_exp {x : ℚ} (hx : 0 ≤ x) : (expTerms (x / 32) 32 : ℝ) ^ 32 ≤ Real.exp x := by
  have hx0 : 0 ≤ x / 32 := div_nonneg hx (by norm_num)
  have hS : (0 : ℝ) ≤ expTerms (x / 32) 32 := by exact_mod_cast zero_le_one.trans (one_le_expTerms hx0 31)
  calc (expTerms (x / 32) 32 : ℝ) ^ 32 ≤ Real.exp ((x / 32 : ℚ) : ℝ) ^ 32 :=
        pow_le_pow_left₀ hS (expTerms_le_exp hx0 32) 32
    _ = Real.exp x := by
        rw [← Real.exp_nat_mul]
        congr 1
        push_cast
        ring

/-- And it falls short of it by a factor of at most `exp (2^-107)`. -/
theorem exp_le_expTerms_pow {x : ℚ} (hx : 0 ≤ x) (hx32 : x ≤ 32) :
    Real.exp x ≤ expTerms (x / 32) 32 ^ 32 * Real.exp (1 / 2 ^ 107) := by
  have hx0 : 0 ≤ x / 32 := div_nonneg hx (by norm_num)
  have hx1 : x / 32 ≤ 1 := (div_le_one (by norm_num)).2 hx32
  calc Real.exp x = Real.exp ((x / 32 : ℚ) : ℝ) ^ 32 := by
        rw [← Real.exp_nat_mul]
        congr 1
        push_cast
        ring
    _ ≤ (expTerms (x / 32) 32 * Real.exp (1 / 2 ^ 112)) ^ 32 :=
        pow_le_pow_left₀ (Real.exp_pos _).le (exp_le_expTerms hx0 hx1) 32
    _ = expTerms (x / 32) 32 ^ 32 * Real.exp (1 / 2 ^ 107) := by
        rw [mul_pow, ← Real.exp_nat_mul]
        congr 2
        norm_num

/-- A number whose test fails is above the logarithm. -/
theorem log_lt_of_lt_expTerms {a x : ℚ} (ha : 0 < a) (hx : 0 ≤ x) (h : a < expTerms (x / 32) 32 ^ 32) :
    Real.log a < x := by
  have ha' : (0 : ℝ) < a := by exact_mod_cast ha
  have h' : (a : ℝ) < (expTerms (x / 32) 32 : ℝ) ^ 32 := by exact_mod_cast h
  exact (Real.log_lt_iff_lt_exp ha').2 (h'.trans_le (expTerms_pow_le_exp hx))

/-- A number whose test holds exceeds the logarithm by at most `2^-107`. -/
theorem le_log_of_expTerms_le {a x : ℚ} (hx : 0 ≤ x) (hx32 : x ≤ 32) (h : expTerms (x / 32) 32 ^ 32 ≤ a) :
    (x : ℝ) ≤ Real.log a + 1 / 2 ^ 107 := by
  have hx0 : 0 ≤ x / 32 := div_nonneg hx (by norm_num)
  have hS1 : (1 : ℝ) ≤ expTerms (x / 32) 32 := by exact_mod_cast one_le_expTerms hx0 31
  have hS : (expTerms (x / 32) 32 : ℝ) ^ 32 ≤ a := by exact_mod_cast h
  have hpos : (0 : ℝ) < a := lt_of_lt_of_le (by positivity) hS
  have hexp : Real.exp x ≤ a * Real.exp (1 / 2 ^ 107) :=
    (exp_le_expTerms_pow hx hx32).trans (mul_le_mul_of_nonneg_right hS (Real.exp_pos _).le)
  calc (x : ℝ) ≤ Real.log (a * Real.exp (1 / 2 ^ 107)) := (Real.le_log_iff_exp_le (by positivity)).2 hexp
    _ = Real.log a + 1 / 2 ^ 107 := by rw [Real.log_mul hpos.ne' (Real.exp_pos _).ne', Real.log_exp]

/-! ### The test of a word -/

theorem lnTest_iff {a : F64} {w : Nat} :
    lnTest a w = true ↔
      w ≤ 0x4040000000000000 ∧ expTerms (f64Value (BitVec.ofNat 64 w) / 32) 32 ^ 32 ≤ f64Value a := by
  simp [lnTest]

theorem value_word32 : f64Value (BitVec.ofNat 64 0x4040000000000000) = 32 := by
  have h1 : f64Significand (BitVec.ofNat 64 0x4040000000000000) = 2 ^ 52 := by decide
  have h2 : f64Power (BitVec.ofNat 64 0x4040000000000000) = -47 := by decide
  rw [f64Value, h1, h2]
  norm_num [zpow_neg]

theorem lnTest_down {a : F64} {v w : Nat} (hvw : v ≤ w) (h : lnTest a w = true) : lnTest a v = true := by
  obtain ⟨hw, ht⟩ := lnTest_iff.1 h
  refine lnTest_iff.2 ⟨hvw.trans hw, le_trans (pow_le_pow_left₀ ?_ (expTerms_mono ?_ ?_ 32) 32) ht⟩
  · exact zero_le_one.trans (one_le_expTerms (div_nonneg (f64Value_nonneg _) (by norm_num)) 31)
  · exact div_nonneg (f64Value_nonneg _) (by norm_num)
  · exact div_le_div_of_nonneg_right ((value_ofNat_le_iff (by omega) (by omega)).2 hvw) (by norm_num)

theorem lnTest_arg_mono {a b : F64} {w : Nat} (hab : f64Value a ≤ f64Value b) (h : lnTest a w = true) :
    lnTest b w = true :=
  lnTest_iff.2 ⟨(lnTest_iff.1 h).1, (lnTest_iff.1 h).2.trans hab⟩

/-- A word at or below the logarithm passes. -/
theorem lnTest_of_le_log {a : F64} (hd : lnDomain a = true) {w : Nat} (hw : w < 2 ^ 63)
    (h : (f64Value (BitVec.ofNat 64 w) : ℝ) ≤ Real.log (f64Value a)) : lnTest a w = true := by
  have hpos : (0 : ℝ) < f64Value a := lt_of_lt_of_le one_pos (one_le_real_of_domain hd)
  have h32 : w ≤ 0x4040000000000000 := by
    by_contra hgt
    have := (value_ofNat_le_iff (by norm_num) hw).2 (le_of_not_ge hgt)
    rw [value_word32] at this
    have : (32 : ℝ) ≤ f64Value (BitVec.ofNat 64 w) := by exact_mod_cast this
    linarith [log_lt_of_domain hd]
  by_contra hfail
  have hlt := not_le.1 fun hc => hfail (lnTest_iff.2 ⟨h32, hc⟩)
  exact absurd h (not_le.2 (log_lt_of_lt_expTerms (by exact_mod_cast hpos) (f64Value_nonneg _) hlt))

/-- A word that passes exceeds the logarithm by at most `2^-107`. -/
theorem le_log_of_lnTest {a : F64} {w : Nat} (h : lnTest a w = true) :
    (f64Value (BitVec.ofNat 64 w) : ℝ) ≤ Real.log (f64Value a) + 1 / 2 ^ 107 := by
  obtain ⟨h32, ht⟩ := lnTest_iff.1 h
  have hx32 := (value_ofNat_le_iff (by omega) (by norm_num)).2 h32
  rw [value_word32] at hx32
  exact le_log_of_expTerms_le (f64Value_nonneg _) hx32 ht

/-! ### The search -/

/-- The search gives the greatest number in its range that passes. -/
theorem greatestBelow_spec {test : Nat → Bool} (hdown : ∀ {v w}, v ≤ w → test w = true → test v = true) :
    ∀ k acc, test acc = true →
      greatestBelow test k acc < acc + 2 ^ k ∧
        ∀ v, v < acc + 2 ^ k → (test v = true ↔ v ≤ greatestBelow test k acc) := by
  intro k
  induction k with
  | zero =>
    intro acc h
    refine ⟨by simp [greatestBelow], fun v hv => ⟨fun _ => by simp [greatestBelow]; omega, fun hle => hdown hle h⟩⟩
  | succ k ih =>
    intro acc h
    rw [greatestBelow, pow_succ]
    split
    · next hbit =>
      obtain ⟨h1, h2⟩ := ih _ hbit
      exact ⟨by omega, fun v hv => h2 v (by omega)⟩
    · next hbit =>
      obtain ⟨h1, h2⟩ := ih _ h
      refine ⟨by omega, fun v hv => ?_⟩
      rcases Nat.lt_or_ge v (acc + 2 ^ k) with hlt | hge
      · exact h2 v hlt
      · exact ⟨fun hv' => absurd (hdown hge hv') hbit, fun hle => absurd hle (by omega)⟩

/-- What the reference function gives above 1.0: the greatest word that passes, a positive normal one. -/
theorem lnReferenceFn_spec {a : F64} (hd : lnDomain a = true) (h1 : a ≠ f64One) :
    ∃ w, lnReferenceFn a = BitVec.ofNat 64 w ∧ 0x3CA0000000000000 ≤ w ∧ w ≤ 0x4040000000000000 ∧
      ∀ v, v < 2 ^ 63 → (lnTest a v = true ↔ v ≤ w) := by
  have h0 : lnTest a 0 = true :=
    lnTest_of_le_log hd (by norm_num) (by
      rw [value_ofNat (by norm_num)]
      simpa [unitsOf] using Real.log_nonneg (one_le_real_of_domain hd))
  obtain ⟨hlt, hspec⟩ := greatestBelow_spec (test := lnTest a) (fun hvw => lnTest_down hvw) 63 0 h0
  simp only [zero_add] at hlt hspec
  refine ⟨greatestBelow (lnTest a) 63 0, by rw [lnReferenceFn, if_pos ⟨hd, h1⟩], ?_, ?_, hspec⟩
  · refine (hspec _ (by norm_num)).1 (lnTest_of_le_log hd (by norm_num) ?_)
    have h53 : f64Value (BitVec.ofNat 64 0x3CA0000000000000) = 1 / 2 ^ 53 := f64Value_twoPowNeg53
    rw [h53]
    push_cast
    exact (log_bounds_of_domain hd h1).1
  · exact (lnTest_iff.1 ((hspec _ hlt).2 le_rfl)).1

/-! ### The four properties -/

theorem lnReference_one : LnOne lnReferenceFn := by
  simp [LnOne, lnReferenceFn]

theorem lnReference_pos : LnPos lnReferenceFn := by
  intro a hd h1
  obtain ⟨w, hfn, hlo, hhi, -⟩ := lnReferenceFn_spec hd h1
  rw [hfn, f64PosNormal_iff, toNat_ofNat_of_lt (by omega)]
  omega

theorem lnReference_mono : LnMono lnReferenceFn := by
  intro a b hda hdb hab
  by_cases ha1 : a = f64One
  · rw [ha1, lnReference_one]
    exact le_trans (by simp [f64Value, f64Significand, f64Exponent, f64Fraction]) (f64Value_nonneg _)
  · have hb1 : b ≠ f64One := by
      rintro rfl
      have ha := lnDomain_iff.1 hda
      have hle := (f64Value_le_iff (by omega) (by decide)).1 hab
      exact ha1 (BitVec.eq_of_toNat_eq (le_antisymm hle ha.1))
    obtain ⟨w, hfa, -, hw, hwspec⟩ := lnReferenceFn_spec hda ha1
    obtain ⟨v, hfb, -, hv, hvspec⟩ := lnReferenceFn_spec hdb hb1
    rw [hfa, hfb, value_ofNat_le_iff (by omega) (by omega)]
    exact (hvspec w (by omega)).1 (lnTest_arg_mono hab ((hwspec w (by omega)).2 le_rfl))

theorem lnReference_faithful : LnFaithful lnReferenceFn := by
  intro a hd h1
  obtain ⟨w, hfn, hlo, hhi, hspec⟩ := lnReferenceFn_spec hd h1
  refine ⟨f64Proper_iff.2 (by rw [hfn, toNat_ofNat_of_lt (by omega)]; omega), ?_⟩
  rw [hfn]
  rcases le_or_gt (f64Value (BitVec.ofNat 64 w) : ℝ) (Real.log (f64Value a)) with hle | hgt
  · refine .inl ⟨hle, ?_⟩
    rw [show (BitVec.ofNat 64 w + 1 : F64) = BitVec.ofNat 64 (w + 1) by rw [BitVec.ofNat_add]; rfl]
    by_contra hge
    have := (hspec (w + 1) (by omega)).1 (lnTest_of_le_log hd (by omega) (not_lt.1 hge))
    omega
  · obtain ⟨u, rfl⟩ : ∃ u, w = u + 1 := ⟨w - 1, by omega⟩
    have herr := le_log_of_lnTest ((hspec (u + 1) (by omega)).2 le_rfl)
    refine .inr ⟨?_, ?_, hgt.le⟩
    · intro h0
      have := congrArg BitVec.toNat h0
      rw [toNat_ofNat_of_lt (by omega)] at this
      simp at this
    · rw [show (BitVec.ofNat 64 (u + 1) - 1 : F64) = BitVec.ofNat 64 u by
        rw [BitVec.ofNat_add]; exact BitVec.add_sub_cancel _ _]
      have hstep : f64Value (BitVec.ofNat 64 u) + 1 / 2 ^ 106 ≤ f64Value (BitVec.ofNat 64 (u + 1)) := by
        rw [value_ofNat (by omega), value_ofNat (by omega), unitsOf_succ, Nat.cast_add, Nat.cast_pow, Nat.cast_ofNat,
          add_mul]
        have hexp : 968 ≤ u / 2 ^ 52 - 1 := by omega
        have : (1 : ℚ) / 2 ^ 106 = 2 ^ 968 * (2 : ℚ) ^ (-1074 : Int) := by
          rw [← zpow_natCast, ← zpow_natCast, ← zpow_add₀ two_ne_zero, one_div, ← zpow_neg]
          congr 1
        have hpow : (2 : ℚ) ^ 968 ≤ 2 ^ (u / 2 ^ 52 - 1) := pow_le_pow_right₀ one_le_two hexp
        exact add_le_add le_rfl (this.trans_le (mul_le_mul_of_nonneg_right hpow (by positivity)))
      have hstep' : (f64Value (BitVec.ofNat 64 u) : ℝ) + 1 / 2 ^ 106 ≤ f64Value (BitVec.ofNat 64 (u + 1)) := by
        have := (Rat.cast_le (K := ℝ)).2 hstep
        push_cast at this
        exact this
      have : (1 : ℝ) / 2 ^ 107 < 1 / 2 ^ 106 := by norm_num
      linarith

end Sys2Proof.Machine
end

