-- ==== Sys2Proof/Machine/Logarithm.lean ====
section
/-! DEFINITION. `LN64`, the open logarithm unit of the block (42_estimate rule R85): any unit with the four named
properties, and nothing else known of it. -/

namespace Sys2Proof

/-- A unit that can be run, so that one with the four named properties exists. No claim is about this one. -/
def Machine.lnReference : Machine.LnUnit :=
  { fn := Machine.lnReferenceFn, one := Machine.lnReference_one, pos := Machine.lnReference_pos,
    mono := Machine.lnReference_mono, faithful := Machine.lnReference_faithful }

/-- The block's logarithm unit (42_estimate rule R85, D11): it has the four named properties of that rule, which its type
carries, and no more is known of it. The argument only says that such a unit exists. Free value, log entry 5. -/
opaque Config.lnUnit (exists_unit : Inhabited Machine.LnUnit) : Machine.LnUnit

namespace Machine

/-- `LN64`, which `EST` applies: the function of the block's unit (42_estimate rules R84, R85). It has `LN64_one`,
`LN64_pos`, `LN64_mono` and `LN64_faithful` (Laws/Logarithm.lean), so that no argument gives a value beyond one unit in
the last place of the real logarithm. At 1.0 it is written as the `+0.0` that `LN64_one` makes it. -/
def ln64 (a : F64) : F64 := if a = f64One then 0 else (Config.lnUnit ⟨lnReference⟩).fn a

end Machine

end Sys2Proof
end

