-- ==== Sys2Proof/Machine/Lut.lean ====
section
/-! DEFINITION. The bias-correction table (42_estimate rules R78, R79) and the computation it came from (rule R80). -/

namespace Sys2Proof.Machine

/-- The fifteen words of `ALPHA_LUT`, for `p` from 4 to 18 (42_estimate rule R79). -/
def alphaWords : List F64 :=
  [0x3FE589374BC6A7F0, 0x3FE64DD2F1A9FBE7, 0x3FE6B020C49BA5E3, 0x3FE6E37EF20B947A, 0x3FE6FC16CE33D64D] ++
  [0x3FE70876987DC1B0, 0x3FE70EAB7E0DB3E2, 0x3FE711C7321E7B57, 0x3FE713555C9EFABF, 0x3FE7141C860200C7] ++
  [0x3FE714801FBCCD72, 0x3FE714B1EDDC9938, 0x3FE714CAD53D1AD7, 0x3FE714D7490182E2, 0x3FE714DD82E8C0BE]

/-- `ALPHA_LUT[p]` (42_estimate rule R78); a free value outside 4 to 18. -/
def alphaLut (p : BitVec 5) : F64 :=
  if Config.pMin ≤ p.toNat then
    match alphaWords[p.toNat - Config.pMin]? with
    | some w => w
    | none => Config.alphaOpen p
  else Config.alphaOpen p

/-- `f64` of an integer (00_scope rule R11). -/
def f64OfNat (n : Nat) : F64 := f64Of n 1

/-- The constant the table holds for `p`, computed as the document's expression (42_estimate rule R80): a literal for
`p` of 4, 5 and 6, and `0.7213 / (1 + 1.079/m)` above, each operation rounded. -/
def alphaFormula (p : Nat) : F64 :=
  if p = 4 then f64Of 673 1000
  else if p = 5 then f64Of 697 1000
  else if p = 6 then f64Of 709 1000
  else
    let t1 := fdiv (f64Of 1079 1000) (f64OfNat (2 ^ p))
    let t2 := fadd (f64OfNat 1) t1
    fdiv (f64Of 7213 10000) t2

end Sys2Proof.Machine
end

