-- ==== Sys2Proof/Machine/Estimate.lean ====
section
/-! DEFINITION. Estimation: `EST` (42_estimate rules R71 to R90): the scan into `ACC` and `VCNT`, then the binary64
half, written over a logarithm argument (00_scope rule R5: a model takes `LN64` as an argument). -/

namespace Sys2Proof.Machine

/-! ### The scan -/

/-- What one cell adds to `ACC`: `2^(60 - REGS[j])` (42_estimate rule R73). -/
def accTerm (v : Byte) : Nat :=
  if v.toNat ≤ Config.accFrac then 2 ^ (Config.accFrac - v.toNat) else Config.termOpen v

/-- The terms of the listed cells, summed. -/
def accListed : Cells → Nat
  | [] => 0
  | c :: cs => accTerm c.2 + accListed cs

/-- The sum of the terms (42_estimate rule R73), cells grouped by value as that rule allows: each of the `m` cells that
is not listed holds 0 and adds `2^60`; each listed cell adds its own term. Log entry 13. -/
def scanSum (p : BitVec 5) (cells : Cells) : Nat :=
  2 ^ Config.accFrac * (cellCount p - cells.length) + accListed cells

/-- The number of cells that hold 0 (42_estimate rule R75). Log entry 13. -/
def zeroCells (p : BitVec 5) (cells : Cells) : Nat := cellCount p - cells.length

/-- `ACC` after the scan: the exact sum in 79 bits (42_estimate rules R73, R74). The sum fits in every state that meets
the invariant. Where it does not fit (a precision of 19 or more, log entry 15) no rule defines the overflow, and the
value is free: log entry 18. -/
def scanAcc (p : BitVec 5) (cells : Cells) : BitVec 79 :=
  if scanSum p cells < 2 ^ 79 then BitVec.ofNat 79 (scanSum p cells) else Config.accOpen (scanSum p cells)

/-- `VCNT` after the scan: the number of cells that hold 0, in 19 bits (42_estimate rules R75, R76). Where the count does
not fit (a precision of 19 or more, log entry 15) no rule defines the overflow, and the value is free: log entry 18. -/
def scanVcnt (p : BitVec 5) (cells : Cells) : BitVec 19 :=
  if zeroCells p cells < 2 ^ 19 then BitVec.ofNat 19 (zeroCells p cells) else Config.vcntOpen (zeroCells p cells)

/-- The scan of `EST`: the sums are started from 0, so what `ACC` and `VCNT` held has no effect (42_estimate
rule R72). -/
def scan (s : State) : State :=
  { s with acc := scanAcc s.p s.regs, vcnt := scanVcnt s.p s.regs }

/-! ### The binary64 half -/

/-- `f64(m)` (42_estimate rule R81). -/
def f64M (p : BitVec 5) : F64 := f64OfNat (cellCount p)

/-- `N = fmul(fmul(alpha, f64(m)), f64(m))` (42_estimate rule R81). -/
def numeratorN (p : BitVec 5) : F64 := fmul (fmul (alphaLut p) (f64M p)) (f64M p)

/-- `E = fdiv(N, Zf)`, the raw estimate (42_estimate rules R77, R82). -/
def rawEstimate (p : BitVec 5) (acc : BitVec 79) : F64 := fdiv (numeratorN p) (cvt acc.toNat)

/-- `T = f64(2.5 * m)` (42_estimate rule R83). -/
def thresholdT (p : BitVec 5) : F64 := f64Of (5 * cellCount p) 2

/-- `Q = fdiv(f64(m), f64(VCNT))` (42_estimate rule R84). -/
def quotientQ (p : BitVec 5) (vcnt : BitVec 19) : F64 := fdiv (f64M p) (f64OfNat vcnt.toNat)

/-- The small-range value `R = fmul(f64(m), LN64(Q))` (42_estimate rule R84). -/
def smallRange (ln : F64 → F64) (p : BitVec 5) (vcnt : BitVec 19) : F64 :=
  fmul (f64M p) (ln (quotientQ p vcnt))

/-- The small-range selection: `E <= T` and `VCNT > 0` (42_estimate rule R83). -/
def takesSmallRange (p : BitVec 5) (acc : BitVec 79) (vcnt : BitVec 19) : Bool :=
  fle (rawEstimate p acc) (thresholdT p) && vcnt ≠ 0

/-- The result of `EST` (42_estimate rule R86): the small-range value when it is selected, otherwise `E` as it is, with
no large-range correction (rule R88). -/
def estimateWord (ln : F64 → F64) (p : BitVec 5) (acc : BitVec 79) (vcnt : BitVec 19) : F64 :=
  if takesSmallRange p acc vcnt then smallRange ln p vcnt else rawEstimate p acc

/-- `EST` (42_estimate rule R71): with an estimator, scan and answer the estimate; with none, cause 3. Only `ACC` and
`VCNT` are written (rule R87). -/
def execEst (s : State) : Host.Outcome State Fault Refusal :=
  whenConstructed s fun s =>
    let t := scan s
    respond (estimateWord ln64 t.p t.acc t.vcnt) t

end Sys2Proof.Machine
end

