-- ==== Sys2Proof/Machine/Observe.lean ====
section
/-! DEFINITION. Observation: `OBS` (41_observe rules R61 to R68). -/

namespace Sys2Proof.Machine

/-- `OBS h` (41_observe rule R61): with an estimator, raise the one cell the hash selects to `rho` and answer 0; with
none, cause 3. -/
def execObs (h : Arg) (s : State) : Host.Outcome State Fault Refusal :=
  whenConstructed s fun s =>
    match regRaise s (hashIndex s.p h) (hashRho s.p h) with
    | some s' => respond 0 s'
    | none => .fault .noCell

end Sys2Proof.Machine
end

