-- ==== Sys2Proof/Machine/Dispatch.lean ====
section
/-! DEFINITION. One arm per command (30_encoding rule R44). -/

namespace Sys2Proof.Machine

def exec (i : Instr) (s : State) : Host.Outcome State Fault Refusal :=
  match i with
  | .init n => Sys2Proof.Machine.execInit n s
  | .obs h => Sys2Proof.Machine.execObs h s
  | .est => Sys2Proof.Machine.execEst s

end Sys2Proof.Machine
end

