-- ==== Sys2Proof/Machine/ReservedWord.lean ====
section
/-! DEFINITION. What the block does with a reserved encoding (30_encoding rule R50, 60_exceptions rule R94). -/

namespace Sys2Proof.Machine

/-- A reserved encoding, whichever it is and whatever `VALID` is: InvalidArgument cause 2, no state change
(30_encoding rule R50). -/
def execReserved (r : Reserved) (s : State) : Host.Outcome State Fault Refusal :=
  match r with
  | .estOperand _ => raiseInvalidArgument .reservedEncoding s
  | .opcodeThree _ => raiseInvalidArgument .reservedEncoding s

end Sys2Proof.Machine
end

