-- ==== Sys2Proof/Machine/Step.lean ====
section
/-! DEFINITION. One step: one move of the host, executed to its end (00_scope rule R6, 20_memory rule R38). -/

namespace Sys2Proof.Machine

/-- The block executes one command word: decode first (60_exceptions rule R97), then the command or the reserved
word's error. -/
def runWord (w : CmdWord) (s : State) : Host.Outcome State Fault Refusal :=
  match decode w with
  | .ok i => exec i s
  | .error r => execReserved r s

/-- One step. The host's next move is taken from its stream, then a command is executed or the block is reset; with no
move left the block is idle and keeps its state (60_exceptions rule R104, 70_reset rule R116; log entry 3). -/
def step (s : State) : Host.Outcome State Fault Refusal :=
  match nextMove s with
  | none => .next s
  | some .reset => .next (resetBlock (advance s))
  | some (.command w) => runWord w (advance s)

/-- `s` with the command word `w` as the host's next move (log entry 2). The low 66 bits of the `nbits` bits are the
word; bits above `nbits` are 0. -/
def State.withFetchWord (s : State) (nbits w : Nat) : State :=
  placeNext (BitVec.ofNat 66 (w % 2 ^ nbits)) s

end Sys2Proof.Machine
end

