-- ==== Sys2Proof/Machine/HostSide.lean ====
section
/-! DEFINITION. The host's side: the hash value it forms (20_memory rules R34, R35), and the assembler in which the
spec writes command sequences (30_encoding rules R54, R55). Nothing here is used by `step`. -/

namespace Sys2Proof.Machine

/-! ### The hash value -/

/-- `h = {B0, B1, ..., B7}`: eight digest bytes in output order, big-endian (20_memory rule R34, D13). -/
def digestWord (b : Vector Byte 8) : Arg :=
  b[0] ++ b[1] ++ b[2] ++ b[3] ++ b[4] ++ b[5] ++ b[6] ++ b[7]

/-- `HASH64`, total on every byte string (20_memory rule R35, D9). -/
def hash64 (bytes : List Byte) : Arg := digestWord (Config.digest bytes)

/-- `utf8(text)`, the UTF-8 encoding of a text (20_memory rule R35). -/
def utf8 (text : List Char) : List Byte := (text.flatMap String.utf8EncodeChar).map UInt8.toBitVec

/-! ### Words of assembler lines -/

/-- The command word of a line (30_encoding rules R54, R55). `NEW` with a minus sign takes the two's-complement
operand `2^64 - |n|`. -/
def asmWord : AsmLine → CmdWord
  | .init n => commandWord 0 (BitVec.ofNat 64 n)
  | .obs v => commandWord 1 (BitVec.ofNat 64 v)
  | .est => commandWord 2 0
  | .cmd o v => commandWord (BitVec.ofNat 2 o) (BitVec.ofNat 64 v)
  | .observe text => commandWord 1 (hash64 (utf8 text))
  | .new n => commandWord 0 (BitVec.ofInt 64 n)

/-- The host's moves for a program: one command per line (70_reset rule R116). -/
def asmMoves (lines : List AsmLine) : List HostMove := lines.map fun l => .command (asmWord l)

/-! ### Written form -/

/-- The value of a hexadecimal digit. -/
def hexValue (c : Char) : Option Nat :=
  let n := c.toNat
  if 48 ≤ n ∧ n ≤ 57 then some (n - 48)
  else if 65 ≤ n ∧ n ≤ 70 then some (n - 55)
  else if 97 ≤ n ∧ n ≤ 102 then some (n - 87)
  else none

/-- Digits in a base, most significant first, after the value `acc`. -/
def readDigits (base : Nat) : Nat → List Char → Option Nat
  | acc, [] => some acc
  | acc, c :: cs =>
    match hexValue c with
    | some d => if d < base then readDigits base (acc * base + d) cs else none
    | none => none

/-- A decimal or `0x` hexadecimal integer (30_encoding rule R54). A small `x`, hexadecimal digits of either case, any
number of leading zeros and no plus sign: log entry 16. -/
def readNat : List Char → Option Nat
  | [] => none
  | '0' :: 'x' :: c :: cs => readDigits 16 0 (c :: cs)
  | cs => readDigits 10 0 cs

/-- An integer that may carry a minus sign (30_encoding rule R55), directly before its digits, decimal or `0x`
hexadecimal: log entry 16. -/
def readInt : List Char → Option Int
  | '-' :: cs => (readNat cs).map fun n => -(n : Int)
  | cs => (readNat cs).map fun n => (n : Int)

/-- Drop the blanks at both ends. -/
def trimBlanks (cs : List Char) : List Char :=
  (((cs.dropWhile (· = ' ')).reverse).dropWhile (· = ' ')).reverse

/-- The line without its comment, `#` to the end of the line (30_encoding rule R54). -/
def dropComment (cs : List Char) : List Char := cs.takeWhile (· ≠ '#')

/-- The text between the double quotes of an `OBSERVE` line, with nothing but blanks and a comment around it. A `#`
between the quotes is a character of the text and begins no comment, and a double quote ends the text: the model's
choices, since 30_encoding rule R54 says only "`#` to the end of the line a comment" (log entry 16). -/
def readQuoted (cs : List Char) : Option (List Char) :=
  match cs.dropWhile (· = ' ') with
  | [] => none
  | q :: rest =>
    if q.toNat = 34 then
      match rest.dropWhile (·.toNat ≠ 34) with
      | [] => none
      | _ :: after =>
        if trimBlanks (dropComment after) = [] then some (rest.takeWhile (·.toNat ≠ 34)) else none
    else none

/-- The two operands of a `CMD` line. -/
def readCmd (cs : List Char) : Option AsmLine :=
  match cs.dropWhile (· ≠ ',') with
  | [] => none
  | _ :: after =>
    match readNat (trimBlanks (cs.takeWhile (· ≠ ','))), readNat (trimBlanks after) with
    | some o, some v => some (.cmd o v)
    | _, _ => none

/-- A written command line (30_encoding rules R54, R55); `none` where it is not one or its operand is out of range. No
blank need stand between the mnemonic and its operand, so `INIT4`, `NEW-1` and `CMD2,1` are read as `INIT 4`, `NEW -1`
and `CMD 2, 1`: the model's choice, since rule R54 writes `INIT n` and names no such rule. This and the rest of the
lexical form is log entry 16. -/
def readLine (line : List Char) : Option AsmLine :=
  let body := line.dropWhile (· = ' ')
  let name := body.takeWhile (·.isAlpha)
  let rest := body.dropWhile (·.isAlpha)
  let operand := trimBlanks (dropComment rest)
  let parsed : Option AsmLine :=
    if name = ['I', 'N', 'I', 'T'] then (readNat operand).map .init
    else if name = ['O', 'B', 'S'] then (readNat operand).map .obs
    else if name = ['E', 'S', 'T'] then (if operand = [] then some .est else none)
    else if name = ['C', 'M', 'D'] then readCmd operand
    else if name = ['O', 'B', 'S', 'E', 'R', 'V', 'E'] then (readQuoted rest).map .observe
    else if name = ['N', 'E', 'W'] then (readInt operand).map .new
    else none
  match parsed with
  | some l => if l.wf then some l else none
  | none => none

/-- A hexadecimal digit, in the capitals of the spec. -/
def hexDigit (d : Nat) : Char := Char.ofNat (if d < 10 then 48 + d else 55 + d)

/-- A command or response word as 17 hexadecimal digits, the first of which is `op` or `err` (30_encoding rule R54). -/
def writeWord (v : Nat) : List Char :=
  '0' :: 'x' :: (List.range 17).map fun i => hexDigit (v / 16 ^ (16 - i) % 16)

end Sys2Proof.Machine
end

