-- ==== Sys2Proof/Machine/Pipeline.lean ====
section
/-! DEFINITION. The three stages of the `OBS` datapath with forwarding (41_observe rule R70), and the interlock that
70_reset rule R112 requires of it. `step` does not use them: a claim says the pipeline gives what executing the
commands one after another gives. That the forwarded byte comes from the update stage of the same cycle is the model's
choice between the two ways the rule allows (log entry 17). -/

namespace Sys2Proof.Machine

/-- What stage S1 hands on: the index, and the hash value with its low `P` bits cleared (41_observe rule R70). -/
structure SplitOut where
  index : Nat
  masked : Arg
  deriving DecidableEq, Repr

/-- What stage S2 hands on: the index, `rho`, and the byte read from the cell (41_observe rule R70). -/
structure CountOut where
  index : Nat
  rho : Nat
  cell : Byte
  deriving DecidableEq, Repr

/-- The array and the two pipeline registers. -/
structure Pipe where
  p : BitVec 5
  cells : Cells
  split : Option SplitOut
  count : Option CountOut
  deriving DecidableEq, Repr

/-- Stage S1: `j`, and `x = h & ~(2^P - 1)`. -/
def stageSplit (p : BitVec 5) (h : Arg) : SplitOut :=
  ⟨hashIndex p h, h &&& ~~~(BitVec.ofNat 64 (cellCount p - 1))⟩

/-- The byte stage S3 leaves in its cell. -/
def updatedByte (c : CountOut) : Byte := if c.cell.toNat < c.rho then BitVec.ofNat 8 c.rho else c.cell

/-- The byte stage S2 takes for the cell `j`: the one S3 is leaving there in the same cycle, if it is at work on that
cell, otherwise the one stored (70_reset rule R112). -/
def forwardedCell (cells : Cells) (ahead : Option CountOut) (j : Nat) : Byte :=
  match ahead with
  | some c => if c.index = j then updatedByte c else cellAt cells j
  | none => cellAt cells j

/-- Stage S2: `rho = min(clz_64(x) + 1, 64 - P)` (41_observe rule R66), and the cell. -/
def stageCount (p : BitVec 5) (cells : Cells) (ahead : Option CountOut) (a : SplitOut) : CountOut :=
  ⟨a.index, min (clzField 64 a.masked.toNat + 1) (residualWidth p), forwardedCell cells ahead a.index⟩

/-- Stage S3: compare and, if greater, write. -/
def stageUpdate (cells : Cells) (c : CountOut) : Cells :=
  if c.cell.toNat < c.rho then cellPut cells c.index (BitVec.ofNat 8 c.rho) else cells

/-- One cycle: all three stages at work, with the hash value of an `OBS` entering, or a bubble. -/
def pipeTick (q : Pipe) (input : Option Arg) : Pipe where
  p := q.p
  cells := match q.count with
    | some c => stageUpdate q.cells c
    | none => q.cells
  split := input.map (stageSplit q.p)
  count := q.split.map (stageCount q.p q.cells q.count)

/-- The array after the inputs, one a cycle, and the two cycles that empty the pipeline. -/
def pipeRun (p : BitVec 5) (cells : Cells) (inputs : List (Option Arg)) : Cells :=
  ((inputs ++ [none, none]).foldl pipeTick ⟨p, cells, none, none⟩).cells

end Sys2Proof.Machine
end

