-- ==== Sys2Proof/Safety.lean ====
section
/-! DEFINITION. The terms claims are stated in: the invariant (10_state rule R23), the scan cell by cell (42_estimate
rules R73, R75), and sequences of observations (41_observe rule R69). The named properties of a logarithm unit
(42_estimate rule R85) stand in Machine/LogUnit.lean, where the model's own unit carries them. -/

namespace Sys2Proof.Machine

/-! ### The invariant -/

/-- Every listed cell has an index below `m` and a byte of at most `64 - p` (10_state rule R23 items 1 and 2). -/
def cellsInRange (p : BitVec 5) (cells : Cells) : Bool :=
  cells.all fun c => c.1 < cellCount p && c.2.toNat ≤ residualWidth p

/-- The invariant of the block: the array is in canonical form; with `VALID = 1`, `4 <= P <= 18` and every cell is in
range (10_state rule R23); with `VALID = 0`, no cell exists and `P` is 0 (10_state rules R19, R25). -/
def State.inv (s : State) : Bool :=
  Memory.wf s.regs &&
    (if s.valid then
      Config.pMin ≤ s.p.toNat && s.p.toNat ≤ Config.pMax && cellsInRange s.p s.regs
    else s.p = 0 && s.regs.isEmpty)

/-! ### Words and cells -/

/-- The reserved command words, by their fields (30_encoding rule R50): `op = 2'b11`, or `op = 2'b10` with an operand
that is not zero. -/
abbrev ReservedWord (w : CmdWord) : Prop :=
  w.extractLsb 65 64 = 3#2 ∨ (w.extractLsb 65 64 = 2#2 ∧ w.extractLsb 63 0 ≠ 0#64)

/-- The cell `j` of a constructed array; 0 where there is no such cell, a case the claims exclude. -/
def cellOf (s : State) (j : Nat) : Byte := (regRead s j).getD 0

/-! ### The scan, cell by cell -/

/-- The sum of `f j` over `j` in `0 .. n-1`. -/
def sumBelow (f : Nat → Nat) : Nat → Nat
  | 0 => 0
  | n + 1 => sumBelow f n + f n

/-- The number of `j` in `0 .. n-1` with `f j`. -/
def countBelow (f : Nat → Bool) : Nat → Nat
  | 0 => 0
  | n + 1 => countBelow f n + (if f n then 1 else 0)

/-! ### Sequences of observations -/

/-- The state after a list of `OBS` commands, one after another, if all of them end in a next state. -/
def observeAll : List Arg → State → Option State
  | [], s => some s
  | h :: hs, s =>
    match execObs h s with
    | .next t => observeAll hs t
    | _ => none

/-- The greatest `rho` of the hash values in the list that select the cell `j` at precision `p`, and 0 if there is
none (41_observe rule R69 item 3). -/
def greatestRho (p : BitVec 5) (j : Nat) : List Arg → Nat
  | [] => 0
  | h :: hs => max (if hashIndex p h = j then hashRho p h else 0) (greatestRho p j hs)

/-! ### The parts of the state -/

/-- The two states have the same estimator: `VALID`, `P` and `REGS`. What may differ is the scratch of `EST`, the
host's stream and the responses given before. -/
def sameEstimator (s t : State) : Prop := s.valid = t.valid ∧ s.p = t.p ∧ s.regs = t.regs

end Sys2Proof.Machine
end

