-- ==== Sys2Proof/Certificates/Slice0/Obligations.lean ====
section
/-! DEFINITION. What is claimed of the model, each statement from a rule of the spec. -/

open Sys2Proof Sys2Proof.Machine

/-! ## Encoding (30_encoding) -/

/-- Rules R43 to R47: decoding the word of a command gives the command back, every operand at every value. -/
def Obligations.DecodeOfEncodeIsTheCommand : Prop :=
  ∀ i : Instr, i.wf = true → decode (encode i) = .ok i

/-- Rule R53: a word that decodes to a command is that command's one word. -/
def Obligations.EncodeOfDecodeIsTheWord : Prop :=
  ∀ (w : CmdWord) (i : Instr), decode w = .ok i → encode i = w

/-- Rule R53: the decoder agrees with the mask and match table on all `2^66` words, the rows are disjoint, and a word
that matches no row is reserved. -/
def Obligations.DecodeFollowsMaskAndMatch : Prop :=
  ∀ w : CmdWord,
    (decode w = .ok (.init (w.extractLsb 63 0)) ↔ w &&& 0x30000000000000000#66 = 0x00000000000000000#66) ∧
    (decode w = .ok (.obs (w.extractLsb 63 0)) ↔ w &&& 0x30000000000000000#66 = 0x10000000000000000#66) ∧
    (decode w = .ok .est ↔ w &&& 0x3FFFFFFFFFFFFFFFF#66 = 0x20000000000000000#66) ∧
    ((∃ r, decode w = .error r) ↔
      w &&& 0x30000000000000000#66 ≠ 0x00000000000000000#66 ∧
      w &&& 0x30000000000000000#66 ≠ 0x10000000000000000#66 ∧
      w &&& 0x3FFFFFFFFFFFFFFFF#66 ≠ 0x20000000000000000#66)

/-- Rule R50: the reserved encodings are exactly `op = 11`, and `op = 10` with an operand that is not zero; each is
rejected under its own name. -/
def Obligations.ReservedWordsAreExactlyThese : Prop :=
  ∀ w : CmdWord,
    ((∃ r, decode w = .error r) ↔ ReservedWord w) ∧
    (w.extractLsb 65 64 = 3#2 → decode w = .error (.opcodeThree (w.extractLsb 63 0))) ∧
    (w.extractLsb 65 64 = 2#2 → w.extractLsb 63 0 ≠ 0#64 → decode w = .error (.estOperand (w.extractLsb 63 0)))

/-- Vectors K1, K4, K6, K8, K9, K11 of 95_test_vectors: words written out from rules R43 and R44. -/
def Obligations.SpecWordsDecode : Prop :=
  decode 0x00000000000000004#66 = .ok (.init 4) ∧
  decode 0x0FFFFFFFFFFFFFFFF#66 = .ok (.init 0xFFFFFFFFFFFFFFFF) ∧
  decode 0x10123456789ABCDEF#66 = .ok (.obs 0x0123456789ABCDEF) ∧
  decode 0x20000000000000000#66 = .ok .est ∧
  decode 0x20000000000000001#66 = .error (.estOperand 1) ∧
  decode 0x30000000000000000#66 = .error (.opcodeThree 0)

/-! ## Steps, reset and runs (10_state, 70_reset_and_hazards) -/

/-- Rules R6, R17, R53: when the host's next move is a word that decodes to `i`, a step is `i` executed on the state
whose stream and index have moved by one. -/
def Obligations.StepRunsTheDecodedCommand : Prop :=
  ∀ (s : State) (w : CmdWord) (rest : List HostMove) (i : Instr),
    s.stream = .command w :: rest → decode w = .ok i →
      step s = exec i { s with stream := rest, pos := s.pos + 1 }

/-- Rules R50, R94: a reserved word, whatever `VALID` is, gets the response of cause 2 and changes no state of the
block; the machine goes on to the next move. -/
def Obligations.StepAnswersAReservedWord : Prop :=
  ∀ (s : State) (w : CmdWord) (rest : List HostMove),
    s.stream = .command w :: rest → ReservedWord w →
      step s = .next { s with
        stream := rest, pos := s.pos + 1, responses := s.responses ++ [0x10000000000000002#65] }

/-- Rule R105: a reset between two commands puts `VALID`, `P`, `ACC` and `VCNT` to 0 and leaves no cell, and gives no
response. That the host keeps its stream and its responses is the model's choice (log entry 4). -/
def Obligations.ResetMoveLeavesTheResetState : Prop :=
  ∀ (s : State) (rest : List HostMove), s.stream = .reset :: rest →
    ∃ t : State, step s = .next t ∧
      t.valid = false ∧ t.p = 0 ∧ t.acc = 0 ∧ t.vcnt = 0 ∧ (∀ j, regRead t j = none) ∧
      t.stream = rest ∧ t.pos = s.pos + 1 ∧ t.responses = s.responses

/-- Rules R104, R116: with no move left the block is idle with all state kept. That an idle block still takes a step is
the model's choice (log entry 3). -/
def Obligations.IdleStepKeepsTheState : Prop :=
  ∀ s : State, s.stream = [] → step s = .next s

/-- Rule R116: every command ends in a next state, never a stuck state, a hang, a fault or a refusal. The rule speaks of
commands; that a step with an empty stream also answers a next state (an idle block takes a step) is the model's choice
(log entry 3). -/
def Obligations.EveryStepHasANextState : Prop :=
  ∀ s : State, ∃ t : State, step s = .next t

/-- Rules R48, R56: every one of the `2^66` words gets exactly one response, after those before it, and moves neither
the stream nor the index. -/
def Obligations.EveryWordGetsOneResponse : Prop :=
  ∀ (w : CmdWord) (s : State), ∃ (t : State) (r : RspWord),
    runWord w s = .next t ∧ t.responses = s.responses ++ [r] ∧ t.stream = s.stream ∧ t.pos = s.pos

/-- Rule R116: from any state, a finite list of command words runs to its end in as many steps as it has words, with
one response per word. -/
def Obligations.CommandListRunsToItsEnd : Prop :=
  ∀ (ws : List CmdWord) (s : State), s.stream = ws.map HostMove.command →
    ∃ (t : State) (rs : List RspWord),
      Host.Core.run Sys2Proof.core ws.length s = .next t ∧
      t.stream = [] ∧ t.pos = s.pos + ws.length ∧ t.responses = s.responses ++ rs ∧ rs.length = ws.length

/-- Rule R25, the reset column: `VALID`, `P`, `ACC` and `VCNT` are 0 and no cell has a value. -/
def Obligations.ResetStateHoldsTheSpecValues : Prop :=
  State.reset.valid = false ∧ State.reset.p = 0 ∧ State.reset.acc = 0 ∧ State.reset.vcnt = 0 ∧
    ∀ j, regRead State.reset j = none

/-- Rule R23: the invariant holds after reset. -/
def Obligations.ResetStateMeetsTheInvariant : Prop := State.reset.inv = true

/-- Rule R23: every step keeps the invariant: the canonical array, and with `VALID = 1` a legal precision and cells of
at most `64 - P`. -/
def Obligations.StepKeepsTheInvariant : Prop :=
  ∀ s t : State, s.inv = true → step s = .next t → t.inv = true

/-! ## Construction (40_construct) -/

/-- Rules R57, R59: an `INIT` in range succeeds in every state, writes `P` and `VALID`, leaves exactly `2^n` cells all 0
whatever the array held, writes nothing else of the block, and answers 0. -/
def Obligations.InitConstructs : Prop :=
  ∀ (n : Arg) (s : State), 4 ≤ n.toNat → n.toNat ≤ 18 →
    ∃ t : State, exec (.init n) s = .next t ∧
      t = { s with
        valid := true, p := BitVec.ofNat 5 n.toNat, regs := t.regs, responses := s.responses ++ [0x00000000000000000#65] } ∧
      ∀ j, regRead t j = if j < 2 ^ n.toNat then some 0 else none

/-- Rules R60, R93: an `INIT` out of range changes nothing, whatever `VALID` is, and answers cause 1. -/
def Obligations.InitOutOfRangeChangesNothing : Prop :=
  ∀ (n : Arg) (s : State), n.toNat < 4 ∨ 18 < n.toNat →
    exec (.init n) s = .next { s with responses := s.responses ++ [0x10000000000000001#65] }

/-- Rule R58: the range check takes all 64 bits and passes for exactly the fifteen values 4 to 18. -/
def Obligations.RangeCheckPassesForFifteenValues : Prop :=
  ∀ n : Arg, precisionInRange n = true ↔
    n ∈ ([4, 5, 6, 7, 8, 9, 10, 11, 12, 13, 14, 15, 16, 17, 18] : List Arg)

/-! ## Observation (41_observe) -/

/-- Rules R61, R62, R63, R65, R68: with an estimator, `OBS h` raises the one cell `h mod 2^P` to `rho` if `rho` is
greater, leaves every other cell and everything else as it was, and answers 0. -/
def Obligations.ObsRaisesTheSelectedCell : Prop :=
  ∀ (h : Arg) (s : State), s.valid = true → Memory.wf s.regs = true →
    let j := h.toNat % 2 ^ s.p.toNat
    let w := h.toNat / 2 ^ s.p.toNat
    let W := 64 - s.p.toNat
    let rho := if w = 0 then W else W - Nat.log2 w
    ∃ (t : State) (old new : Byte),
      exec (.obs h) s = .next t ∧
      t = { s with regs := t.regs, responses := s.responses ++ [0x00000000000000000#65] } ∧
      regRead s j = some old ∧ regRead t j = some new ∧ new.toNat = max old.toNat rho ∧
      (rho ≤ old.toNat → t.regs = s.regs) ∧
      ∀ k, k ≠ j → regRead t k = regRead s k

/-- Rules R18, R95: with `VALID = 0`, `OBS` with any operand and `EST` answer cause 3 and do nothing else. -/
def Obligations.NoEstimatorGivesCauseThree : Prop :=
  ∀ s : State, s.valid = false →
    (∀ h : Arg, exec (.obs h) s = .next { s with responses := s.responses ++ [0x10000000000000003#65] }) ∧
    exec .est s = .next { s with responses := s.responses ++ [0x10000000000000003#65] }

/-- Rules R62, R63: the index is `h & (m - 1)`, the residual is the other bits in their order, and together they are
all of `h`. -/
def Obligations.HashSplitsIntoIndexAndResidual : Prop :=
  ∀ (p : BitVec 5) (h : Arg),
    hashIndex p h = (h &&& BitVec.ofNat 64 (2 ^ p.toNat - 1)).toNat ∧
    hashIndex p h ≤ 2 ^ p.toNat - 1 ∧
    hashResidual p h < 2 ^ (64 - p.toNat) ∧
    (∀ i, (hashResidual p h).testBit i = h.getLsbD (p.toNat + i)) ∧
    h.toNat = hashResidual p h * 2 ^ p.toNat + hashIndex p h

/-- Rules R9, R64: `clz_W` is at most `W`; the bits it counts are 0, and for a value that is not 0 the next bit is 1. -/
def Obligations.ClzCountsLeadingZeros : Prop :=
  ∀ W w : Nat, w < 2 ^ W →
    clzField W w ≤ W ∧
    (∀ i, i < clzField W w → w.testBit (W - 1 - i) = false) ∧
    (w ≠ 0 → clzField W w = W - 1 - Nat.log2 w ∧ clzField W w < W ∧
      w.testBit (W - 1 - clzField W w) = true) ∧
    clzField W 0 = W

/-- Rule R65: `rho = W - floorLog2(w)` for `w > 0`, the position from the most-significant end of the most-significant
1 bit, and `rho = W` for `w = 0`. -/
def Obligations.RhoFollowsTheFormula : Prop :=
  ∀ W w : Nat, 0 < W → w < 2 ^ W →
    rhoOf W w = (if w = 0 then W else W - Nat.log2 w) ∧
    rhoOf W w = min (clzField W w + 1) W ∧
    (w ≠ 0 → w.testBit (W - rhoOf W w) = true ∧ ∀ i, W - rhoOf W w < i → w.testBit i = false)

/-- Rule R66: the form of `rho` with no shifter, and the leading zeros of the shifted word, for every legal precision. -/
def Obligations.RhoWithoutShifter : Prop :=
  ∀ (p : BitVec 5) (h : Arg), 4 ≤ p.toNat → p.toNat ≤ 18 →
    hashRho p h = min (clzField 64 (h &&& ~~~(BitVec.ofNat 64 (2 ^ p.toNat - 1))).toNat + 1) (64 - p.toNat) ∧
    (hashResidual p h ≠ 0 →
      clzField 64 (h >>> p.toNat).toNat = p.toNat + clzField (64 - p.toNat) (hashResidual p h))

/-- Rule R67: the range of `rho`, its value in each band of residuals, and how many residuals have each value. -/
def Obligations.RhoRangeAndTable : Prop :=
  (∀ W, 1 ≤ W →
    (∀ w, w < 2 ^ W → 1 ≤ rhoOf W w ∧ rhoOf W w ≤ W) ∧
    (∀ k w, 1 ≤ k → k ≤ W → 2 ^ (W - k) ≤ w → w < 2 ^ (W - k + 1) → rhoOf W w = k) ∧
    rhoOf W 0 = W ∧
    (∀ k, 1 ≤ k → k < W → countBelow (fun w => rhoOf W w == k) (2 ^ W) = 2 ^ (W - k)) ∧
    countBelow (fun w => rhoOf W w == W) (2 ^ W) = 2) ∧
  (∀ (p : BitVec 5) (h : Arg), 4 ≤ p.toNat → hashRho p h ≤ 60) ∧
  hashRho 4 0 = 60 ∧ hashRho 18 0 = 46

/-- Rule R69 item 2: a second `OBS` of the same hash value changes nothing but the list of responses. -/
def Obligations.ObsTwiceIsObsOnce : Prop :=
  ∀ (h : Arg) (s : State), s.valid = true → Memory.wf s.regs = true →
    ∃ t : State, exec (.obs h) s = .next t ∧
      exec (.obs h) t = .next { t with responses := t.responses ++ [0x00000000000000000#65] }

/-- Rule R69 item 3: after an `INIT` and any list of `OBS` commands, every cell holds the greatest `rho` over the
commands that select it, and 0 if none does. -/
def Obligations.CellsHoldTheGreatestRho : Prop :=
  ∀ (n : Arg) (s : State) (hs : List Arg), 4 ≤ n.toNat → n.toNat ≤ 18 →
    ∃ t u : State, exec (.init n) s = .next t ∧ observeAll hs t = some u ∧
      u.valid = true ∧ u.p.toNat = n.toNat ∧
      ∀ j, j < 2 ^ n.toNat → ∃ v : Byte, regRead u j = some v ∧ v.toNat = greatestRho u.p j hs

/-- Rule R69 item 3: two lists with the same hash values, in any order and with any repetition, give the same array. -/
def Obligations.ObservationOrderAndRepetitionDoNotMatter : Prop :=
  ∀ (s : State) (hs hs' : List Arg), s.valid = true → Memory.wf s.regs = true →
    (∀ h, h ∈ hs ↔ h ∈ hs') →
    ∃ t t' : State, observeAll hs s = some t ∧ observeAll hs' s = some t' ∧ sameEstimator t t'

/-- Rules R23 item 3, R69 item 1: between constructions no cell ever falls, `P` and `VALID` stay. -/
def Obligations.CellsNeverFallBetweenConstructions : Prop :=
  ∀ (w : CmdWord) (s : State), s.inv = true →
    (∀ n : Arg, decode w = .ok (.init n) → n.toNat < 4 ∨ 18 < n.toNat) →
    ∃ t : State, runWord w s = .next t ∧ t.valid = s.valid ∧ t.p = s.p ∧
      ∀ (j : Nat) (a : Byte), regRead s j = some a → ∃ b : Byte, regRead t j = some b ∧ a.toNat ≤ b.toNat

/-- Rules R70, R112: the three-stage pipeline with forwarding, fed any sequence of `OBS` commands and bubbles and then
emptied, leaves the array that executing the commands one after another leaves. The forwarding is the model's choice of
the two ways the rule allows (log entry 17). -/
def Obligations.PipelineLeavesTheSequentialArray : Prop :=
  ∀ (s : State) (inputs : List (Option Arg)), s.valid = true → Memory.wf s.regs = true →
    4 ≤ s.p.toNat → s.p.toNat ≤ 18 →
    ∃ t : State, observeAll (inputs.filterMap id) s = some t ∧ pipeRun s.p s.regs inputs = t.regs

/-! ## Estimation (42_estimate) -/

/-- Rules R71, R87: with an estimator `EST` writes `ACC` and `VCNT` only, leaves every cell, and answers the estimate
of the sums it leaves in them. -/
def Obligations.EstWritesOnlyItsScratch : Prop :=
  ∀ s : State, s.valid = true →
    ∃ t : State, exec .est s = .next t ∧
      t = { s with
        acc := t.acc, vcnt := t.vcnt,
        responses := s.responses ++ [0#1 ++ estimateWord ln64 s.p t.acc t.vcnt] } ∧
      ∀ j, regRead t j = regRead s j

/-- Rule R73: after `EST`, `ACC` is the sum over the cells of `2^(60 - cell)`, exactly, and so the sum over the values
`r` of the number of cells that hold `r` times `2^(60 - r)`; every exponent is between 0 and 60. -/
def Obligations.AccumulatorIsTheSum : Prop :=
  ∀ s : State, s.inv = true → s.valid = true →
    ∃ t : State, exec .est s = .next t ∧
      (∀ j, (cellOf s j).toNat ≤ 60) ∧
      t.acc.toNat = sumBelow (fun j => 2 ^ (60 - (cellOf s j).toNat)) (2 ^ s.p.toNat) ∧
      t.acc.toNat =
        sumBelow (fun r => countBelow (fun j => (cellOf s j).toNat == r) (2 ^ s.p.toNat) * 2 ^ (60 - r)) 61

/-- Rule R75: after `EST`, `VCNT` is the number of cells that hold 0. -/
def Obligations.ZeroCountIsTheCount : Prop :=
  ∀ s : State, s.inv = true → s.valid = true →
    ∃ t : State, exec .est s = .next t ∧
      t.vcnt.toNat = countBelow (fun j => cellOf s j == 0) (2 ^ s.p.toNat)

/-- Rules R74, R76: the bounds of `ACC` and `VCNT`, and when they are met. -/
def Obligations.AccumulatorAndCountBounds : Prop :=
  ∀ s : State, s.inv = true → s.valid = true →
    ∃ t : State, exec .est s = .next t ∧
      2 ^ (2 * s.p.toNat - 4) ≤ t.acc.toNat ∧ t.acc.toNat ≤ 2 ^ (s.p.toNat + 60) ∧
      (t.acc.toNat = 2 ^ (2 * s.p.toNat - 4) ↔ ∀ j, j < 2 ^ s.p.toNat → (cellOf s j).toNat = 64 - s.p.toNat) ∧
      (t.acc.toNat = 2 ^ (s.p.toNat + 60) ↔ ∀ j, j < 2 ^ s.p.toNat → cellOf s j = 0) ∧
      t.vcnt.toNat ≤ 2 ^ s.p.toNat ∧
      (t.vcnt.toNat = 2 ^ s.p.toNat ↔ ∀ j, j < 2 ^ s.p.toNat → cellOf s j = 0) ∧
      t.vcnt.toNat * 2 ^ 60 ≤ t.acc.toNat ∧
      t.acc.toNat ≤ t.vcnt.toNat * 2 ^ 60 + (2 ^ s.p.toNat - t.vcnt.toNat) * 2 ^ 59

/-- Rule R77: the conversion algorithm on the integer `A` is `f64(A / 2^60)` and gives a normal number; for every sum a
scan can leave, the exponent field is between 967 and 1041 and the value between `2^-56` and `2^18`. -/
def Obligations.ConversionIsOneRounding : Prop :=
  ∀ A : Nat, 0 < A → A < 2 ^ 79 →
    cvt A = f64Of A (2 ^ 60) ∧ f64PosNormal (cvt A) = true ∧
    (16 ≤ A → A ≤ 2 ^ 78 →
      967 ≤ f64Exponent (cvt A) ∧ f64Exponent (cvt A) ≤ 1041 ∧
      1 / 2 ^ 56 ≤ f64Value (cvt A) ∧ f64Value (cvt A) ≤ 2 ^ 18)

/-- Rule R11: `f64` of a positive rational in the normal range, from `2^-1022` to the greatest finite value
`2^971 * (2^53 - 1)`, is a binary64 value nearest to it, and on a tie the one whose last bit is 0. -/
def Obligations.RoundingGivesTheNearestValue : Prop :=
  ∀ n d : Nat, 0 < n → 0 < d → d ≤ n * 2 ^ 1022 → n ≤ d * (2 ^ 971 * (2 ^ 53 - 1)) →
    f64Proper (f64Of n d) = true ∧
    ∀ v : F64, f64Proper v = true →
      |f64Value (f64Of n d) - (n : ℚ) / d| ≤ |f64Value v - (n : ℚ) / d| ∧
      (v ≠ f64Of n d → |f64Value (f64Of n d) - (n : ℚ) / d| = |f64Value v - (n : ℚ) / d| →
        (f64Of n d).toNat % 2 = 0)

/-- Rules R11, R82: `fmul`, `fdiv` and `fadd` are `f64` of the exact product, quotient and sum of the operands' values,
for any fraction that equals it in the normal range. -/
def Obligations.PrimitivesRoundTheExactResult : Prop :=
  ∀ (a b : F64) (n d : Nat), f64Proper a = true → f64Proper b = true →
    0 < n → 0 < d → d ≤ n * 2 ^ 1022 → n ≤ d * (2 ^ 971 * (2 ^ 53 - 1)) →
    ((n : ℚ) / d = f64Value a * f64Value b → fmul a b = f64Of n d) ∧
    (0 < f64Value b → (n : ℚ) / d = f64Value a / f64Value b → fdiv a b = f64Of n d) ∧
    ((n : ℚ) / d = f64Value a + f64Value b → fadd a b = f64Of n d)

/-- Rules R81, R83, R84: the products by `m` and the threshold are exact, as words, for every legal precision. -/
def Obligations.ProductsByPowersOfTwoAreExact : Prop :=
  ∀ p : BitVec 5, 4 ≤ p.toNat → p.toNat ≤ 18 →
    numeratorN p = alphaLut p + BitVec.ofNat 64 (2 * p.toNat * 2 ^ 52) ∧
    thresholdT p = 0x4004000000000000#64 + BitVec.ofNat 64 (p.toNat * 2 ^ 52) ∧
    f64Value (thresholdT p) = 5 / 2 * 2 ^ p.toNat ∧
    fmul (f64M p) 0 = 0 ∧
    ∀ L : F64, f64PosNormal L = true → L.toNat < 0x4030000000000000 →
      fmul (f64M p) L = L + BitVec.ofNat 64 (p.toNat * 2 ^ 52)

/-- Rules R78, R79, R80: every entry of the table is the document's literal or its formula evaluated in binary64, and
has biased exponent 1022. -/
def Obligations.TableIsTheEvaluatedFormula : Prop :=
  ∀ p : BitVec 5, 4 ≤ p.toNat → p.toNat ≤ 18 →
    alphaLut p = alphaFormula p.toNat ∧ f64Exponent (alphaLut p) = 1022

/-- Rules R83, R84, R86, R88: the response of `EST` is the small-range value when `E <= 2.5 m` as real numbers and a
cell is 0, and otherwise the raw estimate as it is, however large. -/
def Obligations.EstSelectsByTheThreshold : Prop :=
  ∀ s : State, s.inv = true → s.valid = true →
    ∃ t : State, exec .est s = .next t ∧
      let E := fdiv (fmul (fmul (alphaLut s.p) (f64M s.p)) (f64M s.p)) (cvt t.acc.toNat)
      let Q := fdiv (f64M s.p) (f64OfNat t.vcnt.toNat)
      (f64Value E ≤ 5 / 2 * 2 ^ s.p.toNat ∧ t.vcnt ≠ 0 →
        t.responses = s.responses ++ [0#1 ++ fmul (f64M s.p) (ln64 Q)]) ∧
      (¬(f64Value E ≤ 5 / 2 * 2 ^ s.p.toNat ∧ t.vcnt ≠ 0) → t.responses = s.responses ++ [0#1 ++ E])

/-- Rule R90: from any state, a legal `INIT` and then an `EST` answer 0 and `+0.0`, with the sums, the conversion and
the raw estimate that rule names. -/
def Obligations.ZeroStateAnswersZero : Prop :=
  ∀ (n : Arg) (s : State), 4 ≤ n.toNat → n.toNat ≤ 18 →
    ∃ t u : State, exec (.init n) s = .next t ∧ exec .est t = .next u ∧
      u.acc.toNat = 2 ^ n.toNat * 2 ^ 60 ∧ u.vcnt.toNat = 2 ^ n.toNat ∧
      cvt u.acc.toNat = f64M u.p ∧
      rawEstimate u.p u.acc = alphaLut u.p + BitVec.ofNat 64 (n.toNat * 2 ^ 52) ∧
      f64Value (rawEstimate u.p u.acc) < f64Value (thresholdT u.p) ∧
      quotientQ u.p u.vcnt = f64One ∧
      u.responses = s.responses ++ [0x00000000000000000#65, 0x00000000000000000#65]

/-- Rules R71, R86, R89: for a logarithm unit with the named properties of rule R85 (the block's own `ln64` is one), no
operation of `EST` in a reachable state meets an exceptional case: every operand and every result, in the order of the
pseudocode, is a positive normal number in the range given, or `+0.0`. The bound of `L` is one unit in the last place
above rule R89's `f64(ln(2^18)) = 0x4028F40B5ED9812D`, because that word lies below the real `ln(2^18)` and a unit that is
faithful only may round up; for the correctly rounded unit it is that word (CorrectlyRoundedUnitIsLegal). -/
def Obligations.EstMeetsNoExceptionalCase : Prop :=
  ∀ ln : F64 → F64, LnOne ln → LnPos ln → LnFaithful ln →
    ∀ s : State, s.inv = true → s.valid = true →
      ∃ t : State, exec .est s = .next t ∧
        let m := f64M s.p
        let alpha := alphaLut s.p
        let Zf := cvt t.acc.toNat
        let N := numeratorN s.p
        let E := rawEstimate s.p t.acc
        let T := thresholdT s.p
        let V := f64OfNat t.vcnt.toNat
        let Q := quotientQ s.p t.vcnt
        let R := estimateWord ln s.p t.acc t.vcnt
        (f64PosNormal m = true ∧ f64Value m = 2 ^ s.p.toNat) ∧
        (f64PosNormal alpha = true ∧ 1 / 2 ≤ f64Value alpha ∧ f64Value alpha < 1) ∧
        (f64PosNormal Zf = true ∧ (2 : ℚ) ^ (2 * (s.p.toNat : Int) - 64) ≤ f64Value Zf ∧ f64Value Zf ≤ 2 ^ s.p.toNat) ∧
        (f64PosNormal (fmul alpha m) = true ∧ f64Value (fmul alpha m) = f64Value alpha * 2 ^ s.p.toNat) ∧
        (f64PosNormal N = true ∧ f64Value N = f64Value alpha * 2 ^ (2 * s.p.toNat) ∧
          1 / 2 * 2 ^ (2 * s.p.toNat) ≤ f64Value N ∧ f64Value N < 2 ^ (2 * s.p.toNat)) ∧
        (f64PosNormal E = true ∧ 10768 / 1000 ≤ f64Value alpha * 2 ^ s.p.toNat ∧
          f64Value alpha * 2 ^ s.p.toNat ≤ f64Value E ∧ f64Value E ≤ f64Value alpha * 2 ^ 64 ∧ f64Value E < 2 ^ 64) ∧
        (f64PosNormal T = true ∧ 40 ≤ f64Value T ∧ f64Value T ≤ 655360) ∧
        (t.vcnt ≠ 0 →
          (f64PosNormal V = true ∧ f64Value V = t.vcnt.toNat) ∧
          (f64PosNormal Q = true ∧ lnDomain Q = true ∧ 1 ≤ f64Value Q ∧ f64Value Q ≤ 2 ^ s.p.toNat) ∧
          (Q = f64One ↔ t.vcnt.toNat = 2 ^ s.p.toNat)) ∧
        (t.vcnt.toNat = 2 ^ s.p.toNat → ln Q = 0 ∧ smallRange ln s.p t.vcnt = 0) ∧
        (t.vcnt ≠ 0 → t.vcnt.toNat < 2 ^ s.p.toNat →
          1 + 1 / 2 ^ 18 ≤ f64Value Q ∧
          (f64PosNormal (ln Q) = true ∧ 1 / 2 ^ 19 ≤ f64Value (ln Q) ∧ (ln Q).toNat ≤ 0x4028F40B5ED9812E) ∧
          (f64PosNormal (smallRange ln s.p t.vcnt) = true ∧
            f64Value (smallRange ln s.p t.vcnt) = f64Value (ln Q) * 2 ^ s.p.toNat ∧
            f64Value (smallRange ln s.p t.vcnt) ≤ 25 / 2 * 2 ^ 18)) ∧
        (f64Proper R = true ∧ f64Value R < 2 ^ 64 ∧
          (R = 0 ↔ ∀ j, j < 2 ^ s.p.toNat → cellOf s j = 0) ∧ (R ≠ 0 → f64PosNormal R = true))

/-- Rules R86, R89, R90: what `EST` answers in a reachable state, with the block's own logarithm: a finite number without
a sign, below `2^64`, that is `+0.0` exactly when every cell is 0 and otherwise normal. -/
def Obligations.EstAnswersAFiniteEstimate : Prop :=
  ∀ s : State, s.inv = true → s.valid = true →
    ∃ (t : State) (R : F64), exec .est s = .next t ∧ t.responses = s.responses ++ [0#1 ++ R] ∧
      f64Proper R = true ∧ f64Value R < 2 ^ 64 ∧
      (R = 0 ↔ ∀ j, j < 2 ^ s.p.toNat → cellOf s j = 0) ∧ (R ≠ 0 → f64PosNormal R = true)

/-- Rules R84, R85: with a zero cell, not all cells 0, and `E <= 2.5 m`, the response of `EST` is one of the two binary64
values nearest the real number `m * ln(Q)` on either side of it, or that number. -/
def Obligations.SmallRangeResponseIsFaithful : Prop :=
  ∀ s : State, s.inv = true → s.valid = true →
    ∃ (t : State) (R : F64), exec .est s = .next t ∧ t.responses = s.responses ++ [0#1 ++ R] ∧
      (t.vcnt ≠ 0 → t.vcnt.toNat < 2 ^ s.p.toNat → f64Value (rawEstimate s.p t.acc) ≤ 5 / 2 * 2 ^ s.p.toNat →
        FaithfulTo (2 ^ s.p.toNat * Real.log (f64Value (quotientQ s.p t.vcnt))) R)

/-- Rules R85, R89: the correctly rounded logarithm has all four named properties, its greatest value is
`f64(ln(2^18)) = 0x4028F40B5ED9812D`, and any two functions that round correctly agree on the domain, so that `LN64_cr`
is one function there. -/
def Obligations.CorrectlyRoundedUnitIsLegal : Prop :=
  ∀ ln : F64 → F64, LnCorrectlyRounded ln →
    LnOne ln ∧ LnPos ln ∧ LnMono ln ∧ LnFaithful ln ∧
    ln f64TwoPow18 = 0x4028F40B5ED9812D ∧
    (∀ a, lnDomain a = true → (ln a).toNat ≤ 0x4028F40B5ED9812D) ∧
    ∀ ln' : F64 → F64, LnCorrectlyRounded ln' → ∀ a, lnDomain a = true → ln' a = ln a

/-- Rules R84, R85: for a logarithm unit with the four named properties, the small-range value does not fall when fewer
cells are 0. -/
def Obligations.SmallRangeRisesAsZerosFall : Prop :=
  ∀ ln : F64 → F64, LnOne ln → LnPos ln → LnMono ln → LnFaithful ln →
    ∀ (p : BitVec 5) (v v' : BitVec 19), 4 ≤ p.toNat → p.toNat ≤ 18 →
      0 < v.toNat → v.toNat ≤ v'.toNat → v'.toNat ≤ 2 ^ p.toNat →
      f64Value (smallRange ln p v') ≤ f64Value (smallRange ln p v)

/-- Rule R87: two `EST` in a row give the same response and leave the estimator as it was. -/
def Obligations.EstRepeatsItsResponse : Prop :=
  ∀ s : State, s.valid = true →
    ∃ (t u : State) (r : RspWord), exec .est s = .next t ∧ exec .est t = .next u ∧
      t.responses = s.responses ++ [r] ∧ u.responses = s.responses ++ [r, r] ∧
      sameEstimator s t ∧ sameEstimator s u

/-- Rule R87: the response of `EST` depends only on `P` and on how many cells hold each value, not on which. -/
def Obligations.EstDependsOnCellCountsOnly : Prop :=
  ∀ s s' : State, s.inv = true → s'.inv = true → s.valid = true → s'.valid = true → s.p = s'.p →
    (∀ v : Byte, countBelow (fun j => cellOf s j == v) (2 ^ s.p.toNat) =
      countBelow (fun j => cellOf s' j == v) (2 ^ s.p.toNat)) →
    ∃ (t t' : State) (r : RspWord), exec .est s = .next t ∧ exec .est s' = .next t' ∧
      t.responses = s.responses ++ [r] ∧ t'.responses = s'.responses ++ [r] ∧
      t.acc = t'.acc ∧ t.vcnt = t'.vcnt

/-! ## Errors and whole-machine rules (60_exceptions, 10_state) -/

/-- Rules R92, R98: a command whose response has `err = 1` changes no state at all, and its data is 1, 2 or 3. -/
def Obligations.ErrorsChangeNoState : Prop :=
  ∀ (w : CmdWord) (s : State), ∃ (t : State) (r : RspWord),
    runWord w s = .next t ∧ t.responses = s.responses ++ [r] ∧
    (r.extractLsb 64 64 = 1#1 →
      t = { s with responses := s.responses ++ [r] } ∧
      (r.extractLsb 63 0 = 1#64 ∨ r.extractLsb 63 0 = 2#64 ∨ r.extractLsb 63 0 = 3#64))

/-- Rules R96, R97: which cause a word raises: reserved first, then no estimator, then the range; otherwise none. -/
def Obligations.CausesFollowThePriority : Prop :=
  ∀ (w : CmdWord) (s : State), ∃ (t : State) (r : RspWord),
    runWord w s = .next t ∧ t.responses = s.responses ++ [r] ∧
    (if ReservedWord w then r = 0x10000000000000002#65
    else if w.extractLsb 65 64 = 0#2 then
      (if 4 ≤ (w.extractLsb 63 0).toNat ∧ (w.extractLsb 63 0).toNat ≤ 18 then r.extractLsb 64 64 = 0#1
      else r = 0x10000000000000001#65)
    else (if s.valid = true then r.extractLsb 64 64 = 0#1 else r = 0x10000000000000003#65))

/-- Rules R22, R72, R99: what `ACC` and `VCNT` held, and what was answered before, errors among it, has no effect on
any command: two states with the same estimator give every word the same response and end with the same estimator. -/
def Obligations.ScratchAndHistoryHaveNoEffect : Prop :=
  ∀ (w : CmdWord) (s s' : State), sameEstimator s s' →
    ∃ (t t' : State) (r : RspWord), runWord w s = .next t ∧ runWord w s' = .next t' ∧
      t.responses = s.responses ++ [r] ∧ t'.responses = s'.responses ++ [r] ∧ sameEstimator t t'

/-- Rules R18, R19: nothing but a reset puts `VALID` back to 0, and nothing but a reset and an `INIT` in range changes
`VALID` or `P`. -/
def Obligations.OnlyInitAndResetChangeTheConfiguration : Prop :=
  ∀ s t : State, step s = .next t → s.stream.head? ≠ some .reset →
    (s.valid = true → t.valid = true) ∧
    (t.valid ≠ s.valid ∨ t.p ≠ s.p →
      ∃ (w : CmdWord) (n : Arg), s.stream.head? = some (.command w) ∧ decode w = .ok (.init n) ∧
        4 ≤ n.toNat ∧ n.toNat ≤ 18)

/-! ## The register array (20_memory) -/

/-- Rules R30, R37: a write to a cell that exists is read back, changes exactly that cell, and changes nothing when it
writes what the cell holds. -/
def Obligations.RegisterWriteThenRead : Prop :=
  ∀ (s : State) (j : Nat) (v : Byte), s.valid = true → j < 2 ^ s.p.toNat → Memory.wf s.regs = true →
    ∃ t : State, regWrite s j v = some t ∧ regRead t j = some v ∧
      (∀ k, k ≠ j → regRead t k = regRead s k) ∧ (regRead s j = some v → t = s)

/-- Rule R30: with `VALID = 0`, or at an index of `m` or more, there is no cell to read or write. -/
def Obligations.NoCellOutsideTheArray : Prop :=
  ∀ (s : State) (j : Nat), s.valid = false ∨ 2 ^ s.p.toNat ≤ j →
    regRead s j = none ∧ ∀ v : Byte, regWrite s j v = none

/-! ## The host's side (20_memory, 30_encoding) -/

/-- Rule R34: `B0` is bits 63:56 of `h` and `B7` is bits 7:0. -/
def Obligations.DigestBytesAreBigEndian : Prop :=
  ∀ (b : Vector Byte 8) (i : Fin 8), (digestWord b).extractLsb' (56 - 8 * i.val) 8 = b[i]

/-- Rules R54, R55: the words of the assembler lines, that `NEW n` with `0 <= n < 2^64` is the word of `INIT n`, and that
the raw form is the only line for a reserved word. -/
def Obligations.AssemblerWordsDecodeBack : Prop :=
  (∀ n : Nat, n < 2 ^ 64 → decode (asmWord (.init n)) = .ok (.init (BitVec.ofNat 64 n))) ∧
  (∀ n : Nat, n < 2 ^ 64 → asmWord (.new n) = asmWord (.init n) ∧
    decode (asmWord (.new n)) = .ok (.init (BitVec.ofNat 64 n))) ∧
  (∀ v : Nat, v < 2 ^ 64 → decode (asmWord (.obs v)) = .ok (.obs (BitVec.ofNat 64 v))) ∧
  decode (asmWord .est) = .ok .est ∧
  (∀ o v : Nat, o ≤ 3 → v < 2 ^ 64 → asmWord (.cmd o v) = BitVec.ofNat 66 (o * 2 ^ 64 + v)) ∧
  (∀ text : List Char, decode (asmWord (.observe text)) = .ok (.obs (hash64 (utf8 text)))) ∧
  (∀ (l : AsmLine) (r : Reserved), l.wf = true → decode (asmWord l) = .error r → ∃ o v, l = .cmd o v)

/-- Rules R45, R55: a negative precision is passed as `2^64 - |n|` and fails the range check in every state. -/
def Obligations.NegativePrecisionFails : Prop :=
  ∀ (n : Int) (s : State), -(2 ^ 63) ≤ n → n < 0 →
    ((asmWord (.new n)).extractLsb 63 0).toNat = 2 ^ 64 - n.natAbs ∧
    runWord (asmWord (.new n)) s = .next { s with responses := s.responses ++ [0x10000000000000001#65] }
end

