-- ==== Sys2Proof/Laws/Logarithm.lean ====
section
/-! SUPPORT. The block's logarithm unit has the four named properties of 42_estimate rule R85, and the correctly rounded
instance of that rule exists, so that a claim which assumes it assumes nothing impossible. -/

namespace Sys2Proof.Machine

/-! ### The block's own unit -/

/-- `ln64` is the function of the block's unit at every argument. -/
theorem ln64_eq (a : F64) : ln64 a = (Config.lnUnit ⟨lnReference⟩).fn a := by
  unfold ln64
  split
  · next h => rw [h, (Config.lnUnit ⟨lnReference⟩).one]
  · rfl

theorem ln64_eq_fn : ln64 = (Config.lnUnit ⟨lnReference⟩).fn := funext ln64_eq

theorem ln64_one : LnOne ln64 := ln64_eq_fn ▸ (Config.lnUnit ⟨lnReference⟩).one

theorem ln64_pos : LnPos ln64 := ln64_eq_fn ▸ (Config.lnUnit ⟨lnReference⟩).pos

theorem ln64_mono : LnMono ln64 := ln64_eq_fn ▸ (Config.lnUnit ⟨lnReference⟩).mono

theorem ln64_faithful : LnFaithful ln64 := ln64_eq_fn ▸ (Config.lnUnit ⟨lnReference⟩).faithful

/-! ### The correctly rounded instance -/

/-- The greatest logarithm of the domain, `ln(2^18)`, lies between the midpoints on either side of the word
`0x4028F40B5ED9812D`, and above the value of that word. -/
theorem log_twoPow18_bounds :
    (12476649250079015550 : ℝ) / 10 ^ 18 < Real.log (2 ^ 18) ∧ Real.log (2 ^ 18) < 12476649250079015580 / 10 ^ 18 := by
  constructor
  · have h := le_log_of_expTerms_le (a := 2 ^ 18) (x := 12476649250079015560 / 10 ^ 18) (by norm_num) (by norm_num)
      (by norm_num [expTerms, Nat.factorial])
    push_cast at h
    have : (1 : ℝ) / 2 ^ 107 < 1 / 10 ^ 30 := by norm_num
    norm_num at h this ⊢
    linarith
  · have h := log_lt_of_lt_expTerms (a := 2 ^ 18) (x := 12476649250079015580 / 10 ^ 18) (by norm_num) (by norm_num)
      (by norm_num [expTerms, Nat.factorial])
    push_cast at h
    exact h

/-- A proper word that is strictly nearer than every other, or as near with its last bit 0, is the rounded value. -/
theorem roundsTo_of_nearer {x : ℝ} {w : Nat} (hw : w < 0x7FF0000000000000)
    (h : ∀ u, u < 0x7FF0000000000000 → u ≠ w →
      |(f64Value (BitVec.ofNat 64 w) : ℝ) - x| < |(f64Value (BitVec.ofNat 64 u) : ℝ) - x| ∨
        (|(f64Value (BitVec.ofNat 64 w) : ℝ) - x| = |(f64Value (BitVec.ofNat 64 u) : ℝ) - x| ∧ w % 2 = 0)) :
    RoundsTo x (BitVec.ofNat 64 w) := by
  have hn : (BitVec.ofNat 64 w : F64).toNat = w := toNat_ofNat_of_lt (by omega)
  refine ⟨f64Proper_iff.2 (by omega), fun v hv => ?_⟩
  have hvw : (BitVec.ofNat 64 v.toNat : F64) = v := by rw [BitVec.ofNat_toNat, BitVec.setWidth_eq]
  by_cases he : v = BitVec.ofNat 64 w
  · rw [he]
    exact ⟨le_rfl, fun hne => absurd rfl hne⟩
  · have := h v.toNat (f64Proper_iff.1 hv) (fun hc => he (by rw [← hc, hvw]))
    rw [hvw] at this
    rcases this with hlt | ⟨heq, hev⟩
    · exact ⟨hlt.le, fun _ hc => absurd hc hlt.ne⟩
    · exact ⟨heq.le, fun _ _ => by rw [hn]; exact hev⟩

/-- Every real number in the range of the logarithm rounds to a proper word: to the greatest word `w` at or below it or
to the next one, whichever is nearer, and on a tie to the one whose last bit is 0. -/
theorem exists_rounded (x : ℝ) (hx : 0 ≤ x) (hx' : x < 2 ^ 18) : ∃ L : F64, RoundsTo x L := by
  obtain ⟨w, hw, hle, hspec⟩ := exists_floor_word x hx hx'
  have hwmax : w < 0x4110000000000000 := by
    by_contra hge
    have h18 : f64Value (BitVec.ofNat 64 0x4110000000000000) = 2 ^ 18 := f64Value_f64TwoPow18
    have := (hspec 0x4110000000000000 (by norm_num)).2 (not_lt.1 hge)
    rw [h18] at this
    push_cast at this
    linarith
  have hgt : x < f64Value (BitVec.ofNat 64 (w + 1)) := by
    by_contra hge
    have := (hspec (w + 1) (by omega)).1 (not_lt.1 hge)
    omega
  have hlt : ∀ u v, u < v → v < 0x7FF0000000000000 →
      (f64Value (BitVec.ofNat 64 u) : ℝ) < f64Value (BitVec.ofNat 64 v) := by
    intro u v huv hv
    have := not_le.1 (mt (value_ofNat_le_iff (v := v) (w := u) (by omega) (by omega)).1 (by omega))
    exact_mod_cast this
  have hbelow : ∀ u, u ≤ w →
      |(f64Value (BitVec.ofNat 64 u) : ℝ) - x| = x - f64Value (BitVec.ofNat 64 u) := by
    intro u hu
    have : (f64Value (BitVec.ofNat 64 u) : ℝ) ≤ x := (hspec u (by omega)).2 hu
    rw [abs_sub_comm]
    exact abs_of_nonneg (by linarith)
  have habove : ∀ u, w + 1 ≤ u → u < 0x7FF0000000000000 →
      |(f64Value (BitVec.ofNat 64 u) : ℝ) - x| = f64Value (BitVec.ofNat 64 u) - x := by
    intro u hu hu'
    have : ¬(f64Value (BitVec.ofNat 64 u) : ℝ) ≤ x := fun hc => by
      have := (hspec u (by omega)).1 hc
      omega
    exact abs_of_nonneg (by linarith)
  have hrest : ∀ u, u < 0x7FF0000000000000 → u ≠ w → u ≠ w + 1 →
      x - f64Value (BitVec.ofNat 64 w) < |(f64Value (BitVec.ofNat 64 u) : ℝ) - x| ∨
        f64Value (BitVec.ofNat 64 (w + 1)) - x < |(f64Value (BitVec.ofNat 64 u) : ℝ) - x| := by
    intro u hu h1 h2
    rcases Nat.lt_or_gt_of_ne h1 with h | h
    · rw [hbelow u h.le]
      exact .inl (by linarith [hlt u w h (by omega)])
    · rw [habove u h hu]
      exact .inr (by linarith [hlt (w + 1) u (by omega) hu])
  have hd := hbelow w le_rfl
  have hu := habove (w + 1) le_rfl (by omega)
  by_cases hchoose : x - f64Value (BitVec.ofNat 64 w) < f64Value (BitVec.ofNat 64 (w + 1)) - x ∨
      (x - f64Value (BitVec.ofNat 64 w) = f64Value (BitVec.ofNat 64 (w + 1)) - x ∧ w % 2 = 0)
  · refine ⟨_, roundsTo_of_nearer (w := w) (by omega) fun u hu' hne => ?_⟩
    rw [hd]
    by_cases h1 : u = w + 1
    · rw [h1, hu]
      exact hchoose
    · exact .inl (by rcases hrest u hu' hne h1 with h | h <;> rcases hchoose with hc | ⟨hc, -⟩ <;> linarith)
  · push Not at hchoose
    obtain ⟨hge, hodd⟩ := hchoose
    refine ⟨_, roundsTo_of_nearer (w := w + 1) (by omega) fun u hu' hne => ?_⟩
    rw [hu]
    by_cases h1 : u = w
    · rw [h1, hd]
      rcases hge.lt_or_eq with hlt' | heq
      · exact .inl hlt'
      · exact .inr ⟨heq, by have := hodd heq.symm; omega⟩
    · exact .inl (by rcases hrest u hu' h1 hne with h | h <;> linarith)

/-- The reference instance `LN64_cr` of 42_estimate rule R85 exists. -/
theorem exists_lnCorrectlyRounded : ∃ ln : F64 → F64, LnCorrectlyRounded ln := by
  classical
  have hchoice : ∀ a : F64, ∃ L : F64, lnDomain a = true → RoundsTo (Real.log (f64Value a)) L := by
    intro a
    by_cases hd : lnDomain a = true
    · obtain ⟨L, hL⟩ := exists_rounded _ (Real.log_nonneg (one_le_real_of_domain hd))
        (lt_of_lt_of_le (log_lt_of_domain hd) (by norm_num))
      exact ⟨L, fun _ => hL⟩
    · exact ⟨0, fun h => absurd h hd⟩
  choose ln hln using hchoice
  exact ⟨ln, hln⟩

end Sys2Proof.Machine
end

