-- ==== Sys2Proof/Laws/State.lean ====
section
/-! SUPPORT. One lemma per field and update of the state, so that no proof unfolds a record update. -/

namespace Sys2Proof.Machine

/-! ### `setCells` -/

@[simp] theorem setCells_valid (cells : Cells) (s : State) :
    (setCells cells s).valid = s.valid := rfl

@[simp] theorem setCells_p (cells : Cells) (s : State) :
    (setCells cells s).p = s.p := rfl

@[simp] theorem setCells_regs (cells : Cells) (s : State) :
    (setCells cells s).regs = cells := rfl

@[simp] theorem setCells_acc (cells : Cells) (s : State) :
    (setCells cells s).acc = s.acc := rfl

@[simp] theorem setCells_vcnt (cells : Cells) (s : State) :
    (setCells cells s).vcnt = s.vcnt := rfl

@[simp] theorem setCells_stream (cells : Cells) (s : State) :
    (setCells cells s).stream = s.stream := rfl

@[simp] theorem setCells_pos (cells : Cells) (s : State) :
    (setCells cells s).pos = s.pos := rfl

@[simp] theorem setCells_responses (cells : Cells) (s : State) :
    (setCells cells s).responses = s.responses := rfl

/-! ### `construct` -/

@[simp] theorem construct_valid (n : Arg) (s : State) :
    (construct n s).valid = true := rfl

@[simp] theorem construct_p (n : Arg) (s : State) :
    (construct n s).p = n.setWidth 5 := rfl

@[simp] theorem construct_regs (n : Arg) (s : State) :
    (construct n s).regs = [] := rfl

@[simp] theorem construct_acc (n : Arg) (s : State) :
    (construct n s).acc = s.acc := rfl

@[simp] theorem construct_vcnt (n : Arg) (s : State) :
    (construct n s).vcnt = s.vcnt := rfl

@[simp] theorem construct_stream (n : Arg) (s : State) :
    (construct n s).stream = s.stream := rfl

@[simp] theorem construct_pos (n : Arg) (s : State) :
    (construct n s).pos = s.pos := rfl

@[simp] theorem construct_responses (n : Arg) (s : State) :
    (construct n s).responses = s.responses := rfl

/-! ### `resetBlock` -/

@[simp] theorem resetBlock_valid (s : State) :
    (resetBlock s).valid = false := rfl

@[simp] theorem resetBlock_p (s : State) :
    (resetBlock s).p = 0 := rfl

@[simp] theorem resetBlock_regs (s : State) :
    (resetBlock s).regs = [] := rfl

@[simp] theorem resetBlock_acc (s : State) :
    (resetBlock s).acc = 0 := rfl

@[simp] theorem resetBlock_vcnt (s : State) :
    (resetBlock s).vcnt = 0 := rfl

@[simp] theorem resetBlock_stream (s : State) :
    (resetBlock s).stream = s.stream := rfl

@[simp] theorem resetBlock_pos (s : State) :
    (resetBlock s).pos = s.pos := rfl

@[simp] theorem resetBlock_responses (s : State) :
    (resetBlock s).responses = s.responses := rfl

/-! ### `pushResponse` -/

@[simp] theorem pushResponse_valid (r : RspWord) (s : State) :
    (pushResponse r s).valid = s.valid := rfl

@[simp] theorem pushResponse_p (r : RspWord) (s : State) :
    (pushResponse r s).p = s.p := rfl

@[simp] theorem pushResponse_regs (r : RspWord) (s : State) :
    (pushResponse r s).regs = s.regs := rfl

@[simp] theorem pushResponse_acc (r : RspWord) (s : State) :
    (pushResponse r s).acc = s.acc := rfl

@[simp] theorem pushResponse_vcnt (r : RspWord) (s : State) :
    (pushResponse r s).vcnt = s.vcnt := rfl

@[simp] theorem pushResponse_stream (r : RspWord) (s : State) :
    (pushResponse r s).stream = s.stream := rfl

@[simp] theorem pushResponse_pos (r : RspWord) (s : State) :
    (pushResponse r s).pos = s.pos := rfl

@[simp] theorem pushResponse_responses (r : RspWord) (s : State) :
    (pushResponse r s).responses = s.responses ++ [r] := rfl

/-! ### `advance` -/

@[simp] theorem advance_valid (s : State) :
    (advance s).valid = s.valid := rfl

@[simp] theorem advance_p (s : State) :
    (advance s).p = s.p := rfl

@[simp] theorem advance_regs (s : State) :
    (advance s).regs = s.regs := rfl

@[simp] theorem advance_acc (s : State) :
    (advance s).acc = s.acc := rfl

@[simp] theorem advance_vcnt (s : State) :
    (advance s).vcnt = s.vcnt := rfl

@[simp] theorem advance_stream (s : State) :
    (advance s).stream = s.stream.tail := rfl

@[simp] theorem advance_pos (s : State) :
    (advance s).pos = s.pos + 1 := rfl

@[simp] theorem advance_responses (s : State) :
    (advance s).responses = s.responses := rfl

/-! ### `placeNext` -/

@[simp] theorem placeNext_valid (w : CmdWord) (s : State) :
    (placeNext w s).valid = s.valid := rfl

@[simp] theorem placeNext_p (w : CmdWord) (s : State) :
    (placeNext w s).p = s.p := rfl

@[simp] theorem placeNext_regs (w : CmdWord) (s : State) :
    (placeNext w s).regs = s.regs := rfl

@[simp] theorem placeNext_acc (w : CmdWord) (s : State) :
    (placeNext w s).acc = s.acc := rfl

@[simp] theorem placeNext_vcnt (w : CmdWord) (s : State) :
    (placeNext w s).vcnt = s.vcnt := rfl

@[simp] theorem placeNext_stream (w : CmdWord) (s : State) :
    (placeNext w s).stream = .command w :: s.stream.tail := rfl

@[simp] theorem placeNext_pos (w : CmdWord) (s : State) :
    (placeNext w s).pos = s.pos := rfl

@[simp] theorem placeNext_responses (w : CmdWord) (s : State) :
    (placeNext w s).responses = s.responses := rfl

/-! ### `scan` -/

@[simp] theorem scan_valid (s : State) :
    (scan s).valid = s.valid := rfl

@[simp] theorem scan_p (s : State) :
    (scan s).p = s.p := rfl

@[simp] theorem scan_regs (s : State) :
    (scan s).regs = s.regs := rfl

@[simp] theorem scan_acc (s : State) :
    (scan s).acc = scanAcc s.p s.regs := rfl

@[simp] theorem scan_vcnt (s : State) :
    (scan s).vcnt = scanVcnt s.p s.regs := rfl

@[simp] theorem scan_stream (s : State) :
    (scan s).stream = s.stream := rfl

@[simp] theorem scan_pos (s : State) :
    (scan s).pos = s.pos := rfl

@[simp] theorem scan_responses (s : State) :
    (scan s).responses = s.responses := rfl

/-! ### The state after reset -/

@[simp] theorem reset_valid : State.reset.valid = false := rfl

@[simp] theorem reset_p : State.reset.p = 0 := rfl

@[simp] theorem reset_regs : State.reset.regs = [] := rfl

@[simp] theorem reset_acc : State.reset.acc = 0 := rfl

@[simp] theorem reset_vcnt : State.reset.vcnt = 0 := rfl

@[simp] theorem reset_stream : State.reset.stream = [] := rfl

@[simp] theorem reset_pos : State.reset.pos = 0 := rfl

@[simp] theorem reset_responses : State.reset.responses = [] := rfl

/-! ### The response list -/

@[simp] theorem lastOf_pushResponse (r : RspWord) (s : State) :
    (pushResponse r s).responses.getLast? = some r := by simp

end Sys2Proof.Machine
end

