-- ==== Sys2Proof/Laws/Memory.lean ====
section
/-! SUPPORT. The register array as a list: reading after writing, and the canonical form kept by every operation. -/

namespace Sys2Proof.Machine

/-! ### The canonical form -/

@[simp] theorem wfFrom_nil (low : Nat) : Memory.wfFrom low [] = true := rfl

theorem wfFrom_cons (low : Nat) (c : Host.Cell) (cs : Cells) :
    Memory.wfFrom low (c :: cs) = true ↔ low ≤ c.1 ∧ c.2 ≠ 0 ∧ Memory.wfFrom (c.1 + 1) cs = true := by
  simp [Memory.wfFrom, and_assoc]

theorem wfFrom_mono {low low' : Nat} {cs : Cells} (h : Memory.wfFrom low cs = true) (hl : low' ≤ low) :
    Memory.wfFrom low' cs = true := by
  cases cs with
  | nil => rfl
  | cons c cs =>
    rw [wfFrom_cons] at h ⊢
    exact ⟨hl.trans h.1, h.2⟩

theorem wfFrom_tail_pos {low : Nat} {c : Host.Cell} {cs : Cells} (h : Memory.wfFrom low (c :: cs) = true) :
    Memory.wfFrom low cs = true :=
  have h' := (wfFrom_cons low c cs).1 h
  wfFrom_mono h'.2.2 (by omega)

theorem wfFrom_index_ge {low : Nat} {cs : Cells} (h : Memory.wfFrom low cs = true) :
    ∀ c ∈ cs, low ≤ c.1 := by
  induction cs generalizing low with
  | nil => simp
  | cons d ds ih =>
    have h' := (wfFrom_cons low d ds).1 h
    intro c hc
    rcases List.mem_cons.1 hc with rfl | hc
    · exact h'.1
    · exact ih (wfFrom_tail_pos h) c hc

theorem wfFrom_ne_zero {low : Nat} {cs : Cells} (h : Memory.wfFrom low cs = true) :
    ∀ c ∈ cs, c.2 ≠ 0 := by
  induction cs generalizing low with
  | nil => simp
  | cons d ds ih =>
    have h' := (wfFrom_cons low d ds).1 h
    intro c hc
    rcases List.mem_cons.1 hc with rfl | hc
    · exact h'.2.1
    · exact ih h'.2.2 c hc

/-! ### Reading -/

@[simp] theorem cellAt_nil (j : Nat) : cellAt [] j = 0 := rfl

theorem cellAt_cons (c : Host.Cell) (cs : Cells) (j : Nat) :
    cellAt (c :: cs) j = if c.1 = j then c.2 else cellAt cs j := rfl

theorem cellAt_eq_zero_of_lt {low j : Nat} {cs : Cells} (h : Memory.wfFrom low cs = true) (hj : j < low) :
    cellAt cs j = 0 := by
  induction cs generalizing low with
  | nil => rfl
  | cons c cs ih =>
    have h' := (wfFrom_cons low c cs).1 h
    rw [cellAt_cons, if_neg (by omega)]
    exact ih h'.2.2 (by omega)

theorem cellAt_of_mem {low : Nat} {cs : Cells} (h : Memory.wfFrom low cs = true) :
    ∀ c ∈ cs, cellAt cs c.1 = c.2 := by
  induction cs generalizing low with
  | nil => simp
  | cons d ds ih =>
    have h' := (wfFrom_cons low d ds).1 h
    intro c hc
    rcases List.mem_cons.1 hc with rfl | hc
    · simp [cellAt_cons]
    · have := wfFrom_index_ge h'.2.2 c hc
      rw [cellAt_cons, if_neg (by omega)]
      exact ih h'.2.2 c hc

theorem mem_of_cellAt_ne_zero {cs : Cells} {j : Nat} (h : cellAt cs j ≠ 0) : (j, cellAt cs j) ∈ cs := by
  induction cs with
  | nil => simp at h
  | cons c cs ih =>
    rw [cellAt_cons] at h ⊢
    split at h
    · next he => simp [← he]
    · next he => simp [he, ih h]

/-- Two canonical lists that read the same are the same list. -/
theorem cells_ext {low : Nat} {cs ds : Cells} (hc : Memory.wfFrom low cs = true) (hd : Memory.wfFrom low ds = true)
    (h : ∀ j, cellAt cs j = cellAt ds j) : cs = ds := by
  induction cs generalizing low ds with
  | nil =>
    cases ds with
    | nil => rfl
    | cons d ds =>
      have hd' := (wfFrom_cons low d ds).1 hd
      exact absurd (by simpa [cellAt_cons] using (h d.1).symm) hd'.2.1
  | cons c cs ih =>
    have hc' := (wfFrom_cons low c cs).1 hc
    cases ds with
    | nil => exact absurd (by simpa [cellAt_cons] using h c.1) hc'.2.1
    | cons d ds =>
      have hd' := (wfFrom_cons low d ds).1 hd
      have hcd : c.1 = d.1 := by
        rcases lt_trichotomy c.1 d.1 with hlt | heq | hgt
        · have := h c.1
          rw [cellAt_cons, if_pos rfl, cellAt_cons, if_neg (by omega),
            cellAt_eq_zero_of_lt hd'.2.2 (by omega)] at this
          exact absurd this hc'.2.1
        · exact heq
        · have := h d.1
          rw [cellAt_cons, if_neg (by omega), cellAt_eq_zero_of_lt hc'.2.2 (by omega), cellAt_cons,
            if_pos rfl] at this
          exact absurd this.symm hd'.2.1
      have hv : c.2 = d.2 := by
        have := h c.1
        rwa [cellAt_cons, if_pos rfl, cellAt_cons, if_pos hcd.symm] at this
      have htail : cs = ds := by
        refine ih hc'.2.2 (by rw [hcd]; exact hd'.2.2) fun j => ?_
        by_cases hj : c.1 = j
        · rw [cellAt_eq_zero_of_lt hc'.2.2 (by omega), cellAt_eq_zero_of_lt hd'.2.2 (by omega)]
        · have := h j
          rwa [cellAt_cons, if_neg hj, cellAt_cons, if_neg (by omega)] at this
      rw [htail, Prod.ext hcd hv]

/-! ### Writing -/

theorem wfFrom_cellPut {low : Nat} {cs : Cells} (h : Memory.wfFrom low cs = true) {j : Nat} (hj : low ≤ j)
    (v : Byte) : Memory.wfFrom low (cellPut cs j v) = true := by
  induction cs generalizing low with
  | nil =>
    unfold cellPut
    split
    · rfl
    · next hv => exact (wfFrom_cons ..).2 ⟨hj, hv, rfl⟩
  | cons c cs ih =>
    have h' := (wfFrom_cons low c cs).1 h
    unfold cellPut
    split
    · split
      · exact h
      · next hlt hv => exact (wfFrom_cons ..).2 ⟨hj, hv, (wfFrom_cons ..).2 ⟨by simpa using hlt, h'.2⟩⟩
    · split
      · next heq =>
        split
        · exact wfFrom_tail_pos h
        · next hv => exact (wfFrom_cons ..).2 ⟨hj, hv, by simpa [heq] using h'.2.2⟩
      · next h1 h2 => exact (wfFrom_cons ..).2 ⟨h'.1, h'.2.1, ih h'.2.2 (by omega)⟩

/-- Writing keeps the canonical form. -/
theorem wf_cellPut {cs : Cells} (h : Memory.wf cs = true) (j : Nat) (v : Byte) :
    Memory.wf (cellPut cs j v) = true :=
  wfFrom_cellPut h (Nat.zero_le j) v

theorem wf_nil : Memory.wf [] = true := rfl

/-- Reset leaves a canonical array. -/
theorem wf_reset : Memory.wf State.reset.regs = true := rfl

/-- A read of another cell is unchanged by a write. -/
theorem cellAt_cellPut_other (cs : Cells) {j k : Nat} (v : Byte) (hk : k ≠ j) :
    cellAt (cellPut cs j v) k = cellAt cs k := by
  induction cs with
  | nil =>
    unfold cellPut
    split
    · rfl
    · rw [cellAt_cons, if_neg (by simpa using hk.symm)]
  | cons c cs ih =>
    unfold cellPut
    split
    · split
      · rfl
      · rw [cellAt_cons, if_neg (by simpa using hk.symm)]
    · split
      · next heq =>
        split
        · rw [cellAt_cons, if_neg (by omega)]
        · rw [cellAt_cons, if_neg (by simpa using hk.symm), cellAt_cons, if_neg (by omega)]
      · rw [cellAt_cons, ih, cellAt_cons]

/-- A read after a write to the same cell gives the byte written. -/
theorem cellAt_cellPut_same {low : Nat} {cs : Cells} (h : Memory.wfFrom low cs = true) (j : Nat) (v : Byte) :
    cellAt (cellPut cs j v) j = v := by
  induction cs generalizing low with
  | nil =>
    unfold cellPut
    split
    · next hv => simp [hv]
    · simp [cellAt_cons]
  | cons c cs ih =>
    have h' := (wfFrom_cons low c cs).1 h
    unfold cellPut
    split
    · next hlt =>
      split
      · next hv =>
        rw [cellAt_cons, if_neg (by omega), cellAt_eq_zero_of_lt h'.2.2 (by omega), hv]
      · simp [cellAt_cons]
    · split
      · next heq =>
        split
        · next hv => rw [cellAt_eq_zero_of_lt h'.2.2 (by omega), hv]
        · simp [cellAt_cons]
      · next h1 h2 =>
        rw [cellAt_cons, if_neg (by omega)]
        exact ih h'.2.2

/-- Every cell of a written array is a cell of the array before, or the one written. -/
theorem mem_cellPut {cs : Cells} {j : Nat} {v : Byte} {c : Host.Cell} (h : c ∈ cellPut cs j v) :
    c ∈ cs ∨ c = (j, v) := by
  induction cs with
  | nil =>
    unfold cellPut at h
    split at h <;> simp_all
  | cons d ds ih =>
    unfold cellPut at h
    split at h
    · split at h
      · exact .inl h
      · rcases List.mem_cons.1 h with rfl | h
        · exact .inr rfl
        · exact .inl h
    · split at h
      · split at h
        · exact .inl (List.mem_cons_of_mem _ h)
        · rcases List.mem_cons.1 h with rfl | h
          · exact .inr rfl
          · exact .inl (List.mem_cons_of_mem _ h)
      · rcases List.mem_cons.1 h with rfl | h
        · simp
        · rcases ih h with h | h
          · exact .inl (List.mem_cons_of_mem _ h)
          · exact .inr h

/-- Writing the byte a cell holds changes nothing (20_memory rule R37). -/
theorem cellPut_cellAt {cs : Cells} (h : Memory.wf cs = true) (j : Nat) : cellPut cs j (cellAt cs j) = cs := by
  refine cells_ext (wf_cellPut h j _) h fun k => ?_
  by_cases hk : k = j
  · rw [hk, cellAt_cellPut_same h]
  · exact cellAt_cellPut_other cs _ hk

end Sys2Proof.Machine
end

