-- ==== Sys2Proof/Laws/Ops.lean ====
section
/-! SUPPORT. What each shared operation can do, said once. -/

namespace Sys2Proof.Machine

/-! ### Cells -/

theorem hasCell_iff {s : State} {j : Nat} : hasCell s j = true ↔ s.valid = true ∧ j < cellCount s.p := by
  simp [hasCell]

theorem regRead_of_hasCell {s : State} {j : Nat} (h : hasCell s j = true) :
    regRead s j = some (cellAt s.regs j) := by
  simp [regRead, h]

theorem regRead_eq_none {s : State} {j : Nat} (h : hasCell s j = false) : regRead s j = none := by
  simp [regRead, h]

theorem regRead_eq_some {s : State} {j : Nat} {v : Byte} :
    regRead s j = some v ↔ hasCell s j = true ∧ cellAt s.regs j = v := by
  unfold regRead
  split <;> simp_all

theorem regWrite_of_hasCell {s : State} {j : Nat} (v : Byte) (h : hasCell s j = true) :
    regWrite s j v = some (setCells (cellPut s.regs j v) s) := by
  simp [regWrite, h]

theorem regWrite_eq_none {s : State} {j : Nat} (v : Byte) (h : hasCell s j = false) :
    regWrite s j v = none := by
  simp [regWrite, h]

/-- `regRaise` on a cell that exists answers a state in which only the array may differ. -/
theorem regRaise_eq {s : State} {j : Nat} (rho : Nat) (h : hasCell s j = true) :
    regRaise s j rho =
      some (setCells (if (cellAt s.regs j).toNat < rho then cellPut s.regs j (BitVec.ofNat 8 rho) else s.regs) s) := by
  unfold regRaise
  rw [regRead_of_hasCell h]
  dsimp only
  split
  · rw [regWrite_of_hasCell _ h]
  · rfl

/-- What `regRaise` can do: it answers a state only for a cell that exists, and only the array may differ. -/
theorem regRaise_some {s t : State} {j rho : Nat} (h : regRaise s j rho = some t) :
    hasCell s j = true ∧
      t = setCells (if (cellAt s.regs j).toNat < rho then cellPut s.regs j (BitVec.ofNat 8 rho) else s.regs) s := by
  by_cases hc : hasCell s j = true
  · rw [regRaise_eq rho hc] at h
    exact ⟨hc, (Option.some.inj h).symm⟩
  · unfold regRaise at h
    rw [regRead_eq_none (by simpa using hc)] at h
    cases h

/-- The array after a compare and raise: its canonical form, the raised cell, and every other cell. -/
theorem raised_spec {cs : Cells} (hw : Memory.wf cs = true) (j : Nat) {rho : Nat} (hr : rho < 2 ^ 8) :
    let ds := if (cellAt cs j).toNat < rho then cellPut cs j (BitVec.ofNat 8 rho) else cs
    Memory.wf ds = true ∧ (cellAt ds j).toNat = max (cellAt cs j).toNat rho ∧
      ∀ k, k ≠ j → cellAt ds k = cellAt cs k := by
  dsimp only
  split
  · next hlt =>
    refine ⟨wf_cellPut hw _ _, ?_, fun k hk => cellAt_cellPut_other _ _ hk⟩
    rw [cellAt_cellPut_same hw, BitVec.toNat_ofNat, Nat.mod_eq_of_lt hr]
    omega
  · exact ⟨hw, by omega, fun _ _ => rfl⟩

/-- Every byte of the array after a compare and raise is a byte of the array before, or `rho` at the raised cell. -/
theorem mem_raised {cs : Cells} {j rho : Nat} {c : Host.Cell}
    (h : c ∈ (if (cellAt cs j).toNat < rho then cellPut cs j (BitVec.ofNat 8 rho) else cs)) :
    c ∈ cs ∨ c = (j, BitVec.ofNat 8 rho) := by
  split at h
  · exact mem_cellPut h
  · exact .inl h

/-! ### Operands -/

theorem cellCount_pos (p : BitVec 5) : 0 < cellCount p := Nat.two_pow_pos _

theorem hashIndex_lt (p : BitVec 5) (h : Arg) : hashIndex p h < cellCount p :=
  Nat.mod_lt _ (cellCount_pos p)

/-- An index formed from a hash value always names a cell of a constructed array (20_memory rule R31). -/
theorem hasCell_hashIndex {s : State} (hv : s.valid = true) (h : Arg) : hasCell s (hashIndex s.p h) = true :=
  hasCell_iff.2 ⟨hv, hashIndex_lt s.p h⟩

theorem rhoOf_le (W w : Nat) : rhoOf W w ≤ W := Nat.min_le_right _ _

theorem rhoOf_pos {W : Nat} (hW : 0 < W) (w : Nat) : 0 < rhoOf W w := by
  unfold rhoOf
  omega

theorem residualWidth_le (p : BitVec 5) : residualWidth p ≤ 64 := Nat.sub_le _ _

theorem residualWidth_pos (p : BitVec 5) : 0 < residualWidth p := by
  have := p.isLt
  unfold residualWidth Config.hashWidth
  omega

/-- `rho` always fits a cell (41_observe rule R68). -/
theorem hashRho_le (p : BitVec 5) (h : Arg) : hashRho p h ≤ residualWidth p := rhoOf_le _ _

theorem hashRho_lt (p : BitVec 5) (h : Arg) : hashRho p h < 2 ^ 8 :=
  lt_of_le_of_lt ((hashRho_le p h).trans (residualWidth_le p)) (by norm_num)

theorem hashRho_pos (p : BitVec 5) (h : Arg) : 0 < hashRho p h := rhoOf_pos (residualWidth_pos p) _

theorem precisionInRange_iff {n : Arg} : precisionInRange n = true ↔ 4 ≤ n.toNat ∧ n.toNat ≤ 18 := by
  simp only [precisionInRange, Bool.and_eq_true, decide_eq_true_eq]
  rfl

/-- An operand in range keeps its value in the five bits of `P` (40_construct rule R57). -/
theorem setWidth_toNat_of_inRange {n : Arg} (h : precisionInRange n = true) : (n.setWidth 5).toNat = n.toNat := by
  have := precisionInRange_iff.1 h
  rw [BitVec.toNat_setWidth]
  exact Nat.mod_eq_of_lt (by omega)

/-! ### The guard and the error entry -/

theorem whenConstructed_of_valid {s : State} (h : s.valid = true)
    (body : State → Host.Outcome State Fault Refusal) : whenConstructed s body = body s := by
  simp [whenConstructed, h]

theorem whenConstructed_of_not_valid {s : State} (h : s.valid = false)
    (body : State → Host.Outcome State Fault Refusal) :
    whenConstructed s body = .next (pushResponse (causeWord .noEstimator) s) := by
  simp [whenConstructed, h, raiseInvalidArgument]

theorem execReserved_eq (r : Reserved) (s : State) :
    execReserved r s = .next (pushResponse (causeWord .reservedEncoding) s) := by
  cases r <;> rfl

/-! ### The scan -/

/-- A sum that fits is `ACC`, exactly (42_estimate rules R73, R74). -/
theorem scanAcc_toNat {p : BitVec 5} {cells : Cells} (h : scanSum p cells < 2 ^ 79) :
    (scanAcc p cells).toNat = scanSum p cells := by
  rw [scanAcc, if_pos h, BitVec.toNat_ofNat, Nat.mod_eq_of_lt h]

/-- A count that fits is `VCNT`, exactly (42_estimate rules R75, R76). -/
theorem scanVcnt_toNat {p : BitVec 5} {cells : Cells} (h : zeroCells p cells < 2 ^ 19) :
    (scanVcnt p cells).toNat = zeroCells p cells := by
  rw [scanVcnt, if_pos h, BitVec.toNat_ofNat, Nat.mod_eq_of_lt h]

end Sys2Proof.Machine
end

