-- ==== Sys2Proof/Laws/PerInstr.lean ====
section
/-! SUPPORT. Statements about every command as written text: its word matches its own row of the mask and match table
(30_encoding rule R53) and carries its operand. -/

namespace Sys2Proof.Laws.RowMatch

/-- The word of a command matches the command's row. -/
def Statement (i : Instr) : Prop := i.row.matchesWord (encode i) = true

theorem and_high_mask (op : BitVec 2) (a : Arg) :
    commandWord op a &&& 0x30000000000000000#66 = commandWord op 0 := by
  unfold commandWord
  rw [show (0x30000000000000000#66 : CmdWord) = (3#2 ++ (0#64 : Arg)) from by decide, BitVec.and_append]
  rw [show (3#2 : BitVec 2) = BitVec.allOnes 2 from by decide, BitVec.and_allOnes, BitVec.and_zero]
  rfl

theorem init (n : Arg) : Statement (.init n) := by
  simp only [Statement, EncodingRow.matchesWord, Instr.row, encode, and_high_mask, beq_iff_eq]
  decide

theorem obs (h : Arg) : Statement (.obs h) := by
  simp only [Statement, EncodingRow.matchesWord, Instr.row, encode, and_high_mask, beq_iff_eq]
  decide

theorem est : Statement .est := by
  unfold Statement
  decide

end Sys2Proof.Laws.RowMatch
end

