-- ==== Sys2Proof/Laws/Step.lean ====
section
/-! SUPPORT. What a command and a step can do, said once: every invariant and whole-machine rule is derived from the
case lemmas here. -/

namespace Sys2Proof.Machine

/-- What a command does when it answers a next state: it constructs, raises an error, raises one cell, or scans. -/
inductive ExecCase (s t : State) : Instr → Prop where
  | constructed (n : Arg) (hr : precisionInRange n = true) (ht : t = pushResponse (okWord 0) (construct n s)) :
      ExecCase s t (.init n)
  | outOfRange (n : Arg) (hr : precisionInRange n = false)
      (ht : t = pushResponse (causeWord .precisionOutOfRange) s) : ExecCase s t (.init n)
  | observed (h : Arg) (hv : s.valid = true) (u : State)
      (hu : regRaise s (hashIndex s.p h) (hashRho s.p h) = some u) (ht : t = pushResponse (okWord 0) u) :
      ExecCase s t (.obs h)
  | obsUnconstructed (h : Arg) (hv : s.valid = false) (ht : t = pushResponse (causeWord .noEstimator) s) :
      ExecCase s t (.obs h)
  | estimated (hv : s.valid = true)
      (ht : t = pushResponse (okWord (estimateWord ln64 s.p (scan s).acc (scan s).vcnt)) (scan s)) :
      ExecCase s t .est
  | estUnconstructed (hv : s.valid = false) (ht : t = pushResponse (causeWord .noEstimator) s) : ExecCase s t .est

theorem exec_cases {i : Instr} {s t : State} (h : exec i s = .next t) : ExecCase s t i := by
  cases i with
  | init n =>
    change execInit n s = _ at h
    unfold execInit at h
    split at h
    · next hr => exact .constructed n hr (Host.Outcome.next.inj h).symm
    · next hr => exact .outOfRange n (by simpa using hr) (Host.Outcome.next.inj h).symm
  | obs a =>
    change execObs a s = _ at h
    unfold execObs at h
    cases hv : s.valid with
    | true =>
      rw [whenConstructed_of_valid hv] at h
      split at h
      · next u hu => exact .observed a hv u hu (Host.Outcome.next.inj h).symm
      · cases h
    | false =>
      rw [whenConstructed_of_not_valid hv] at h
      exact .obsUnconstructed a hv (Host.Outcome.next.inj h).symm
  | est =>
    change execEst s = _ at h
    unfold execEst at h
    cases hv : s.valid with
    | true =>
      rw [whenConstructed_of_valid hv] at h
      exact .estimated hv (Host.Outcome.next.inj h).symm
    | false =>
      rw [whenConstructed_of_not_valid hv] at h
      exact .estUnconstructed hv (Host.Outcome.next.inj h).symm

/-- What a command word does when it answers a next state. -/
theorem runWord_cases {w : CmdWord} {s t : State} (h : runWord w s = .next t) :
    (∃ i, decode w = .ok i ∧ exec i s = .next t) ∨
      (∃ r, decode w = .error r ∧ t = pushResponse (causeWord .reservedEncoding) s) := by
  unfold runWord at h
  split at h
  · next i hi => exact .inl ⟨i, hi, h⟩
  · next r hr =>
    rw [execReserved_eq] at h
    exact .inr ⟨r, hr, (Host.Outcome.next.inj h).symm⟩

/-- What a step does when it answers a next state. -/
theorem step_cases {s t : State} (h : step s = .next t) :
    (s.stream = [] ∧ t = s) ∨
      (∃ rest, s.stream = .reset :: rest ∧ t = resetBlock (advance s)) ∨
        ∃ w rest, s.stream = .command w :: rest ∧ runWord w (advance s) = .next t := by
  unfold step nextMove at h
  cases hs : s.stream with
  | nil =>
    rw [hs] at h
    exact .inl ⟨rfl, (Host.Outcome.next.inj h).symm⟩
  | cons m rest =>
    rw [hs] at h
    cases m with
    | reset => exact .inr (.inl ⟨rest, rfl, (Host.Outcome.next.inj h).symm⟩)
    | command w => exact .inr (.inr ⟨w, rest, rfl, h⟩)

/-- A word placed next is the host's next move. -/
theorem nextMove_withFetchWord (s : State) (nbits w : Nat) :
    nextMove (s.withFetchWord nbits w) = some (.command (BitVec.ofNat 66 (w % 2 ^ nbits))) := rfl

/-- Every operation keeps the canonical form of the array. -/
theorem wf_runWord {w : CmdWord} {s t : State} (hw : Memory.wf s.regs = true) (h : runWord w s = .next t) :
    Memory.wf t.regs = true := by
  rcases runWord_cases h with ⟨i, -, hi⟩ | ⟨r, -, rfl⟩
  · cases exec_cases hi with
    | constructed n hr ht => rw [ht]; rfl
    | outOfRange n hr ht => rw [ht]; exact hw
    | observed a hv u hu ht =>
      rw [ht, pushResponse_regs, (regRaise_some hu).2, setCells_regs]
      exact (raised_spec hw _ (hashRho_lt _ _)).1
    | obsUnconstructed a hv ht => rw [ht]; exact hw
    | estimated hv ht => rw [ht]; exact hw
    | estUnconstructed hv ht => rw [ht]; exact hw
  · exact hw

end Sys2Proof.Machine
end

