-- ==== Sys2Proof/Laws/Words.lean ====
section
/-! SUPPORT. The fields of command and response words. -/

namespace Sys2Proof

theorem commandWord_bit (op : BitVec 2) (a : Arg) (i : Nat) :
    (commandWord op a).getLsbD i = if i < 64 then a.getLsbD i else op.getLsbD (i - 64) :=
  BitVec.getLsbD_append

@[simp] theorem argField_commandWord (op : BitVec 2) (a : Arg) : argField (commandWord op a) = a := by
  refine BitVec.eq_of_getLsbD_eq fun i hi => ?_
  rw [argField, BitVec.getLsbD_extractLsb', commandWord_bit]
  simp [hi]

@[simp] theorem opField_commandWord (op : BitVec 2) (a : Arg) : opField (commandWord op a) = op := by
  refine BitVec.eq_of_getLsbD_eq fun i hi => ?_
  rw [opField, BitVec.getLsbD_extractLsb', commandWord_bit]
  simp [hi]

/-- A word is made of its two fields (30_encoding rule R43). -/
theorem commandWord_fields (w : CmdWord) : commandWord (opField w) (argField w) = w := by
  refine BitVec.eq_of_getLsbD_eq fun i hi => ?_
  rw [commandWord_bit, argField, opField, BitVec.getLsbD_extractLsb', BitVec.getLsbD_extractLsb']
  split
  · next h => simp [h]
  · next h => simp [show i - 64 < 2 by omega, show 64 + (i - 64) = i by omega]

theorem opField_eq_extractLsb (w : CmdWord) : w.extractLsb 65 64 = opField w := rfl

theorem argField_eq_extractLsb (w : CmdWord) : w.extractLsb 63 0 = argField w := rfl

/-- The decoder on a word given by its fields, opcode by opcode (30_encoding rule R53). -/
theorem decode_commandWord (op : BitVec 2) (a : Arg) :
    decode (commandWord op a) =
      if op = 0 then .ok (.init a) else if op = 1 then .ok (.obs a)
      else if op = 2 then (if a = 0 then .ok .est else .error (.estOperand a)) else .error (.opcodeThree a) := by
  rw [decode, argField_commandWord, opField_commandWord]
  revert op
  intro op
  have h : op = 0 ∨ op = 1 ∨ op = 2 ∨ op = 3 := by
    revert op
    decide
  rcases h with rfl | rfl | rfl | rfl <;> rfl

namespace Machine

theorem responseWord_bit (e : BitVec 1) (d : BitVec 64) (i : Nat) :
    (e ++ d : RspWord).getLsbD i = if i < 64 then d.getLsbD i else e.getLsbD (i - 64) :=
  BitVec.getLsbD_append

/-- The `err` field of a response word (30_encoding rule R48). -/
theorem extract_err (e : BitVec 1) (d : BitVec 64) : (e ++ d : RspWord).extractLsb 64 64 = e := by
  refine BitVec.eq_of_getLsbD_eq fun i hi => ?_
  rw [BitVec.extractLsb, BitVec.getLsbD_extractLsb', responseWord_bit]
  have : i = 0 := by omega
  simp [this]

/-- The `data` field of a response word (30_encoding rule R48). -/
theorem extract_data (e : BitVec 1) (d : BitVec 64) : (e ++ d : RspWord).extractLsb 63 0 = d := by
  refine BitVec.eq_of_getLsbD_eq fun i hi => ?_
  have hi' : i < 64 := hi
  rw [BitVec.extractLsb, BitVec.getLsbD_extractLsb', responseWord_bit]
  simp [hi']

end Machine

end Sys2Proof
end

