-- ==== Sys2Proof/Tests/Slice0.lean ====
section
/-! SUPPORT. The model's own tests, with expected results from 95_test_vectors, and one witness per statement with
hypotheses. -/

namespace Sys2Proof.Tests

open Sys2Proof.Machine

/-! ### Small states -/

/-- A constructed state with precision `p` and the given cells. -/
def built (p : BitVec 5) (cells : Cells) : State :=
  { State.reset with valid := true, p := p, regs := cells }

/-- The responses a next state holds. -/
def responsesOf (o : Host.Outcome State Fault Refusal) : Option (List RspWord) :=
  match o with
  | .next t => some t.responses
  | _ => none

/-- The estimator a next state holds: `VALID`, `P`, the cells. -/
def estimatorOf (o : Host.Outcome State Fault Refusal) : Option (Bool × BitVec 5 × Cells) :=
  match o with
  | .next t => some (t.valid, t.p, t.regs)
  | _ => none

/-! ### Well-formedness: an ill-formed term for each check -/

/-- K9, K11 of 95_test_vectors: a reserved word matches no row. -/
theorem test_wf_refuses_reserved_words :
    CmdWord.wf 0x20000000000000001#66 = false ∧ CmdWord.wf 0x30000000000000000#66 = false ∧
      CmdWord.wf 0x20000000000000000#66 = true := by decide

/-- 30_encoding rule R54: `0 <= n < 2^64`, `0 <= o <= 3`; rule R45: a signed 64-bit `NEW` operand. -/
theorem test_wf_refuses_lines_out_of_range :
    AsmLine.wf (.init (2 ^ 64)) = false ∧ AsmLine.wf (.obs (2 ^ 64)) = false ∧ AsmLine.wf (.cmd 4 0) = false ∧
      AsmLine.wf (.cmd 3 (2 ^ 64)) = false ∧ AsmLine.wf (.new (-(2 ^ 63) - 1)) = false ∧
      AsmLine.wf (.new (2 ^ 64)) = false := by decide

/-- The canonical form refuses a listed 0 and indices that do not rise. -/
theorem test_wf_refuses_cells :
    Memory.wf [(3, 0)] = false ∧ Memory.wf [(3, 1), (3, 2)] = false ∧ Memory.wf [(0, 1), (3, 2)] = true := by decide

/-- 10_state rule R23: a cell above `64 - P`, an index of `m` or more, and a precision of 19 break the invariant. -/
theorem test_inv_refuses :
    (built 4 [(0, 61)]).inv = false ∧ (built 4 [(16, 1)]).inv = false ∧ (built 19 []).inv = false ∧
      (built 4 [(15, 60)]).inv = true := by decide

/-! ### Decoding, words written out from 30_encoding rules R43 and R44 -/

/-- K1, K2: `INIT 4`, `INIT 18`. -/
theorem test_decode_init :
    decode 0x00000000000000004#66 = .ok (.init 4) ∧ decode 0x00000000000000012#66 = .ok (.init 18) := by decide

/-- K5, K6, K7: `OBS` at the ends of its operand and between. -/
theorem test_decode_obs :
    decode 0x10000000000000000#66 = .ok (.obs 0) ∧
      decode 0x10123456789ABCDEF#66 = .ok (.obs 0x0123456789ABCDEF) ∧
      decode 0x1FFFFFFFFFFFFFFFF#66 = .ok (.obs 0xFFFFFFFFFFFFFFFF) := by decide

/-- K8, K9, K10: the one `EST` word, and `EST` words with an operand bit set. -/
theorem test_decode_est :
    decode 0x20000000000000000#66 = .ok .est ∧
      decode 0x20000000000000001#66 = .error (.estOperand 1) ∧
      decode 0x28000000000000000#66 = .error (.estOperand 0x8000000000000000) := by decide

/-- K11, K12: opcode 3. -/
theorem test_decode_reserved :
    decode 0x30000000000000000#66 = .error (.opcodeThree 0) ∧
      decode 0x3FFFFFFFFFFFFFFFF#66 = .error (.opcodeThree 0xFFFFFFFFFFFFFFFF) := by decide

/-- The words of 30_encoding rule R54. -/
theorem test_encode_words :
    encode (.init 14) = 0x0000000000000000E#66 ∧ encode (.obs 0x0123456789ABCDEF) = 0x10123456789ABCDEF#66 ∧
      encode .est = 0x20000000000000000#66 := by decide

/-- The opcode table's rows, in 72 bits (whole bytes) and in 66. -/
theorem test_decodeTableWord :
    decodeTableWord 72 0x00000000000000000 = some (.init 0) ∧ decodeTableWord 66 0x10000000000000000 = some (.obs 0) ∧
      decodeTableWord 72 0x20000000000000000 = some .est ∧ decodeTableWord 72 0x30000000000000000 = none := by decide

/-! ### INIT -/

/-- I1: the first step after reset constructs. -/
theorem test_init_first_step :
    step (State.reset.withFetchWord 72 0x00000000000000004) =
      .next { State.reset with valid := true, p := 4, pos := 1, responses := [0x00000000000000000#65] } := by rfl

/-- I11 and I7: an operand out of range, or with bit 32 set, leaves the estimator and answers cause 1. -/
theorem test_init_out_of_range :
    estimatorOf (exec (.init 19) (built 4 [(3, 60)])) = some (true, 4, [(3, 60)]) ∧
      responsesOf (exec (.init 0x0000000100000004) State.reset) = some [0x10000000000000001#65] := by decide

/-! ### OBS -/

/-- The example of rule R61, and U2: an equal `rho` writes nothing. -/
theorem test_obs_raises :
    estimatorOf (exec (.obs 0x0123456789ABCDEF) (built 4 [])) = some (true, 4, [(15, 8)]) ∧
      estimatorOf (exec (.obs 0x4000000000000005) (built 4 [(5, 2)])) = some (true, 4, [(5, 2)]) := by decide

/-- U5 and U7 beside X1: the greatest `rho`, a smaller one after it, and no estimator. -/
theorem test_obs_ends :
    estimatorOf (exec (.obs 0) (built 4 [(0, 59)])) = some (true, 4, [(0, 60)]) ∧
      estimatorOf (exec (.obs 0xFFFFFFFFFFFFFFF0) (built 4 [(0, 60)])) = some (true, 4, [(0, 60)]) ∧
      responsesOf (exec (.obs 0x1234) State.reset) = some [0x10000000000000003#65] := by decide

/-- Rows O1, O3, O7, O10, O13, O18, O22, O24 of 95_test_vectors: index and `rho`. -/
theorem test_hash_split_vectors :
    (hashIndex 4 0, hashRho 4 0) = (0, 60) ∧ (hashIndex 4 0x13, hashRho 4 0x13) = (3, 60) ∧
      (hashIndex 4 0x20, hashRho 4 0x20) = (0, 59) ∧
      (hashIndex 5 0x0123456789ABCDEF, hashRho 5 0x0123456789ABCDEF) = (15, 8) ∧
      (hashIndex 18 0x0123456789ABCDEF, hashRho 18 0x0123456789ABCDEF) = (249327, 8) ∧
      (hashIndex 14 0xDEADBEEF, hashRho 14 0xDEADBEEF) = (16111, 33) ∧
      (hashIndex 18 0xFFFFFFFFFFFFFFFF, hashRho 18 0xFFFFFFFFFFFFFFFF) = (262143, 1) ∧
      (hashIndex 18 0xC0001, hashRho 18 0xC0001) = (1, 45) := by decide

/-! ### EST -/

/-- E5: with a zero cell and `E` above `T` the raw estimate is returned. -/
theorem test_est_raw :
    responsesOf (exec .est (built 4 ((List.range 15).map fun k => (k + 1, 10)))) =
      some [0x04065399F36B9708A#65] := by decide

/-- E1 at `P = 18`, and X2: the zero state, and no estimator. -/
theorem test_est_zero_state :
    responsesOf (exec .est (built 18 [])) = some [0x00000000000000000#65] ∧
      responsesOf (exec .est State.reset) = some [0x10000000000000003#65] := by decide

/-! ### The binary64 half, on the sums of the vectors -/

/-- E2: the sums of the scan, the conversion, the raw estimate, and the small-range value with the vector's `L`. -/
theorem test_estimate_vector_E2 :
    scanAcc 4 [(0, 60), (3, 60), (15, 1)] = 0x0000D800000000000002 ∧ scanVcnt 4 [(0, 60), (3, 60), (15, 1)] = 13 ∧
      cvt 0x0000D800000000000002 = 0x402B000000000000 ∧
      rawEstimate 4 0x0000D800000000000002 = 0x4029862E92B28E26 ∧ quotientQ 4 13 = 0x3FF3B13B13B13B14 ∧
      estimateWord (fun _ => 0x3FCA93ED3C8AD9E5) 4 0x0000D800000000000002 13 = 0x400A93ED3C8AD9E5 := by decide

/-- T1 to T4: ties down and up, above half, below half. -/
theorem test_cvt_rounding :
    cvt 0x1FFFF800000000800000 = 0x40FFFFF800000000 ∧ cvt 0x1FFFF000000001800000 = 0x40FFFFF000000002 ∧
      cvt 0x1FFFF000000000804000 = 0x40FFFFF000000001 ∧ cvt 0x1FFFF800000000400000 = 0x40FFFFF800000000 := by decide

/-- E15, T2, E3: the greatest result, a rounded sum, and `E <= T` with no zero cell. -/
theorem test_estimate_raw_vectors :
    estimateWord ln64 18 0x00000000000100000000 0 = 0x43E714DD82E8C0BE ∧
      estimateWord ln64 18 0x1FFFF000000001800000 0 = 0x411714E90D5D476B ∧
      estimateWord ln64 4 0x00008000000000000000 0 = 0x403589374BC6A7F0 := by decide

/-- L3, L4: thresholds and numerators. -/
theorem test_threshold_and_numerator :
    thresholdT 14 = 0x40E4000000000000 ∧ numeratorN 14 = 0x41A714801FBCCD72 ∧
      numeratorN 18 = 0x422714DD82E8C0BE := by decide

/-! ### Reserved words, reset, the host -/

/-- X3, X4: cause 2 before cause 3, and opcode 3, as the first step after reset. -/
theorem test_reserved_steps :
    responsesOf (step (State.reset.withFetchWord 66 0x20000000000000001)) = some [0x10000000000000002#65] ∧
      responsesOf (step (State.reset.withFetchWord 66 0x30000000000000000)) = some [0x10000000000000002#65] := by decide

/-- 70_reset rule R105: a reset between commands leaves no estimator and gives no response. -/
theorem test_reset_step :
    step { built 4 [(3, 60)] with stream := [.reset], acc := 5, vcnt := 6 } =
      .next { State.reset with pos := 1 } := by rfl

/-- 30_encoding rules R54, R55: a raw word, a comment, `NEW -1`, and the 17 digits. -/
theorem test_host_lines :
    (readLine ['C', 'M', 'D', ' ', '2', ',', ' ', '1', ' ', '#', 'x']).map asmWord = some 0x20000000000000001#66 ∧
      (readLine ['N', 'E', 'W', ' ', '-', '1']).map asmWord = some 0x0FFFFFFFFFFFFFFFF#66 ∧
      writeWord 0x20000000000000000 = '0' :: 'x' :: '2' :: List.replicate 16 '0' := by decide

/-- 20_memory rule R34: the first digest byte is the most significant. -/
theorem test_host_digest :
    digestWord #v[0x01, 0x23, 0x45, 0x67, 0x89, 0xAB, 0xCD, 0xEF] = 0x0123456789ABCDEF := by decide

/-! ### Witnesses: each statement's hypotheses, met together -/

/-- A constructed state in a reachable form: program P1 of 95_test_vectors before its `EST`. -/
def witnessState : State := built 4 [(0, 60), (3, 60), (15, 1)]

theorem witness_DecodeOfEncodeIsTheCommand : (Instr.obs 0xFFFFFFFFFFFFFFFF).wf = true := by decide

theorem witness_EncodeOfDecodeIsTheWord : decode 0x1FFFFFFFFFFFFFFFF#66 = .ok (.obs 0xFFFFFFFFFFFFFFFF) := by decide

theorem witness_ReservedWordsAreExactlyThese :
    (0x3FFFFFFFFFFFFFFFF#66).extractLsb 65 64 = 3#2 ∧
      ((0x20000000000000001#66).extractLsb 65 64 = 2#2 ∧ (0x20000000000000001#66).extractLsb 63 0 ≠ 0#64) := by decide

theorem witness_StepRunsTheDecodedCommand :
    ({ witnessState with stream := [.command 0x20000000000000000#66, .reset] } : State).stream =
        .command 0x20000000000000000#66 :: [.reset] ∧
      decode 0x20000000000000000#66 = .ok .est := by decide

theorem witness_StepAnswersAReservedWord :
    ({ witnessState with stream := [.command 0x20000000000000001#66] } : State).stream =
        .command 0x20000000000000001#66 :: [] ∧
      ReservedWord 0x20000000000000001#66 ∧ ReservedWord 0x3FFFFFFFFFFFFFFFF#66 := by decide

theorem witness_ResetMoveLeavesTheResetState :
    ({ witnessState with stream := [.reset] } : State).stream = .reset :: [] := by decide

theorem witness_IdleStepKeepsTheState : witnessState.stream = [] := by decide

theorem witness_CommandListRunsToItsEnd :
    ({ witnessState with stream := [.command 0, .command 0x30000000000000000#66] } : State).stream =
      [0, 0x30000000000000000#66].map HostMove.command := by decide

/-- The invariant holds with `VALID = 1` and with `VALID = 0`, and a step answers a next state. -/
theorem witness_StepKeepsTheInvariant :
    ({ witnessState with stream := [.command 0x00000000000000005#66] } : State).inv = true ∧
      State.reset.inv = true ∧
      step { witnessState with stream := [.command 0x00000000000000005#66] } =
        .next { State.reset with valid := true, p := 5, pos := 1, responses := [0] } := by
  refine ⟨by decide, by decide, rfl⟩

theorem witness_InitConstructs :
    (4 ≤ (4 : Arg).toNat ∧ (4 : Arg).toNat ≤ 18) ∧ (4 ≤ (18 : Arg).toNat ∧ (18 : Arg).toNat ≤ 18) := by decide

theorem witness_InitOutOfRangeChangesNothing :
    (3 : Arg).toNat < 4 ∧ 18 < (19 : Arg).toNat ∧ 18 < (0xFFFFFFFFFFFFFFFF : Arg).toNat := by decide

theorem witness_ObsRaisesTheSelectedCell : witnessState.valid = true ∧ Memory.wf witnessState.regs = true := by decide

/-- The clause of an equal `rho`: the cell 15 holds 1 and the all-ones hash gives 1. -/
theorem witness_ObsRaisesTheSelectedCell_noWrite :
    hashIndex 4 0xFFFFFFFFFFFFFFFF = 15 ∧ hashRho 4 0xFFFFFFFFFFFFFFFF ≤ (cellAt witnessState.regs 15).toNat := by decide

theorem witness_NoEstimatorGivesCauseThree : State.reset.valid = false := by decide

theorem witness_ClzCountsLeadingZeros : (1 < 2 ^ 60) ∧ (0 < 2 ^ 0) ∧ (1 : Nat) ≠ 0 := by decide

theorem witness_RhoFollowsTheFormula : 0 < 60 ∧ 2 ^ 59 < 2 ^ 60 ∧ (2 ^ 59 : Nat) ≠ 0 := by decide

theorem witness_RhoWithoutShifter :
    (4 ≤ (4 : BitVec 5).toNat ∧ (4 : BitVec 5).toNat ≤ 18 ∧ hashResidual 4 0x10 ≠ 0) ∧
      (4 ≤ (18 : BitVec 5).toNat ∧ (18 : BitVec 5).toNat ≤ 18 ∧ hashResidual 18 0x40000 ≠ 0) := by decide

theorem witness_RhoRangeAndTable :
    (1 ≤ 2 ∧ 3 < 2 ^ 2) ∧ (1 ≤ 1 ∧ 1 ≤ 2 ∧ 2 ^ (2 - 1) ≤ 3 ∧ 3 < 2 ^ (2 - 1 + 1)) ∧ (1 ≤ 1 ∧ 1 < 2) ∧
      4 ≤ (4 : BitVec 5).toNat := by decide

theorem witness_ObsTwiceIsObsOnce : witnessState.valid = true ∧ Memory.wf witnessState.regs = true := by decide

theorem witness_CellsHoldTheGreatestRho : 4 ≤ (18 : Arg).toNat ∧ (18 : Arg).toNat ≤ 18 ∧ 262143 < 2 ^ (18 : Arg).toNat := by
  decide

theorem witness_ObservationOrderAndRepetitionDoNotMatter :
    witnessState.valid = true ∧ Memory.wf witnessState.regs = true ∧
      ∀ h : Arg, h ∈ ([1, 2] : List Arg) ↔ h ∈ ([2, 1, 2] : List Arg) := by
  refine ⟨by decide, by decide, fun h => ?_⟩
  simp only [List.mem_cons, List.not_mem_nil, or_false]
  tauto

/-- An `OBS` word, and an `INIT` word out of range. -/
theorem witness_CellsNeverFallBetweenConstructions :
    witnessState.inv = true ∧
      (∀ n : Arg, decode 0x10000000000000000#66 = .ok (.init n) → n.toNat < 4 ∨ 18 < n.toNat) ∧
      ∀ n : Arg, decode 0x00000000000000013#66 = .ok (.init n) → n.toNat < 4 ∨ 18 < n.toNat := by
  refine ⟨by decide, fun n hn => ?_, fun n hn => ?_⟩
  · rw [show decode 0x10000000000000000#66 = .ok (.obs 0) from by decide] at hn
    cases hn
  · rw [show decode 0x00000000000000013#66 = .ok (.init 19) from by decide] at hn
    cases hn
    decide

/-- P3 of 95_test_vectors, commands 2 to 6 back to back in the pipeline: `REGS[7] = 12`, `REGS[8] = 1`. -/
theorem test_pipeline_forwards :
    pipeRun 5 [] [some 0x0800000000000007, some 0x0800000000000007, some 0x4000000000000007,
      some 0x0010000000000007, some 0x8000000000000008] = [(7, 12), (8, 1)] := by decide

theorem witness_PipelineLeavesTheSequentialArray :
    witnessState.valid = true ∧ Memory.wf witnessState.regs = true ∧ 4 ≤ witnessState.p.toNat ∧
      witnessState.p.toNat ≤ 18 := by decide

theorem witness_EstWritesOnlyItsScratch : witnessState.valid = true := by decide

theorem witness_AccumulatorIsTheSum : witnessState.inv = true ∧ witnessState.valid = true := by decide

theorem witness_ZeroCountIsTheCount : witnessState.inv = true ∧ witnessState.valid = true := by decide

theorem witness_AccumulatorAndCountBounds : witnessState.inv = true ∧ witnessState.valid = true := by decide

theorem witness_ConversionIsOneRounding : 0 < 16 ∧ 16 < 2 ^ 79 ∧ 0 < 2 ^ 78 ∧ 2 ^ 78 < 2 ^ 79 := by decide

/-- The greatest finite value as a numerator. -/
theorem pos_greatestFinite : 0 < 2 ^ 971 * (2 ^ 53 - 1) := Nat.mul_pos (Nat.two_pow_pos _) (by decide)

/-- 1/3, and the greatest finite value itself. -/
theorem witness_RoundingGivesTheNearestValue :
    (0 < 1 ∧ 0 < 3 ∧ 3 ≤ 1 * 2 ^ 1022 ∧ 1 ≤ 3 * (2 ^ 971 * (2 ^ 53 - 1)) ∧ f64Proper 0x3FD5555555555556 = true) ∧
      (0 < 2 ^ 971 * (2 ^ 53 - 1) ∧ 1 ≤ 2 ^ 971 * (2 ^ 53 - 1) * 2 ^ 1022 ∧
        2 ^ 971 * (2 ^ 53 - 1) ≤ 1 * (2 ^ 971 * (2 ^ 53 - 1))) := by
  refine ⟨⟨by decide, by decide, ?_, Nat.mul_pos (by decide) pos_greatestFinite, by decide⟩,
    pos_greatestFinite, Nat.mul_pos pos_greatestFinite (Nat.two_pow_pos _), (Nat.one_mul _).ge⟩
  exact le_trans (show 3 ≤ 2 ^ 2 from by decide) (by rw [Nat.one_mul]; exact Nat.pow_le_pow_right (by decide) (by decide))

/-- 1.0 times, over and plus 1.0. -/
theorem witness_PrimitivesRoundTheExactResult :
    f64Proper f64One = true ∧ 0 < f64Value f64One ∧
      ((1 : ℚ) / (1 : Nat) = f64Value f64One * f64Value f64One) ∧
      ((1 : ℚ) / (1 : Nat) = f64Value f64One / f64Value f64One) ∧
      (((2 : Nat) : ℚ) / (1 : Nat) = f64Value f64One + f64Value f64One) ∧
      (1 ≤ 1 * 2 ^ 1022 ∧ 1 ≤ 1 * (2 ^ 971 * (2 ^ 53 - 1))) ∧ (1 ≤ 2 * 2 ^ 1022 ∧ 2 ≤ 1 * (2 ^ 971 * (2 ^ 53 - 1))) := by
  rw [f64Value_f64One]
  refine ⟨by decide, by norm_num, by norm_num, by norm_num, by norm_num,
    ⟨Nat.mul_pos (by decide) (Nat.two_pow_pos _), Nat.mul_pos (by decide) pos_greatestFinite⟩,
    Nat.mul_pos (by decide) (Nat.two_pow_pos _), ?_⟩
  rw [Nat.one_mul]
  exact le_trans (show 2 ≤ 2 ^ 53 - 1 from by decide) (Nat.le_mul_of_pos_left _ (Nat.two_pow_pos _))

theorem witness_ProductsByPowersOfTwoAreExact :
    (4 ≤ (4 : BitVec 5).toNat ∧ (18 : BitVec 5).toNat ≤ 18) ∧ f64PosNormal 0x3FF0000000000001 = true ∧
      (0x3FF0000000000001 : F64).toNat < 0x4030000000000000 := by decide

theorem witness_TableIsTheEvaluatedFormula : 4 ≤ (4 : BitVec 5).toNat ∧ (18 : BitVec 5).toNat ≤ 18 := by decide

theorem witness_EstSelectsByTheThreshold : witnessState.inv = true ∧ witnessState.valid = true := by decide

theorem witness_ZeroStateAnswersZero : 4 ≤ (4 : Arg).toNat ∧ (4 : Arg).toNat ≤ 18 := by decide

/-- The block's own logarithm, beside a reachable state with some cells 0, one with every cell 0 (`VCNT = m`), and one
with none. -/
theorem witness_EstMeetsNoExceptionalCase :
    (LnOne ln64 ∧ LnPos ln64 ∧ LnFaithful ln64) ∧
      (witnessState.inv = true ∧ witnessState.valid = true ∧ scanVcnt witnessState.p witnessState.regs = 13) ∧
      ((built 4 []).inv = true ∧ (built 4 []).valid = true ∧ (scanVcnt 4 (built 4 []).regs).toNat = 2 ^ (4 : BitVec 5).toNat) ∧
      ((built 18 []).inv = true ∧ (scanVcnt 18 (built 18 []).regs).toNat = 2 ^ (18 : BitVec 5).toNat) ∧
      ((built 4 ((List.range 16).map fun k => (k, 60))).inv = true ∧
        scanVcnt 4 ((List.range 16).map fun k => (k, 60)) = 0) :=
  ⟨⟨ln64_one, ln64_pos, ln64_faithful⟩, by decide⟩

theorem witness_EstAnswersAFiniteEstimate :
    (witnessState.inv = true ∧ witnessState.valid = true) ∧ ((built 4 []).inv = true ∧ (built 4 []).valid = true) := by
  decide

/-- E2 of 95_test_vectors: 13 cells are 0 and `E <= T`. -/
theorem witness_SmallRangeResponseIsFaithful :
    (witnessState.inv = true ∧ witnessState.valid = true ∧ (scan witnessState).vcnt ≠ 0 ∧
        (scan witnessState).vcnt.toNat < 2 ^ witnessState.p.toNat) ∧
      f64Value (rawEstimate witnessState.p (scan witnessState).acc) ≤ 5 / 2 * 2 ^ witnessState.p.toNat := by
  refine ⟨by decide, ?_⟩
  have hE : rawEstimate witnessState.p (scan witnessState).acc = 0x4029862E92B28E26 := by decide
  have hT : f64Value 0x4044000000000000 = 40 := by
    have h1 : f64Significand 0x4044000000000000 = 5 * 2 ^ 50 := by decide
    have h2 : f64Power 0x4044000000000000 = -47 := by decide
    rw [f64Value, h1, h2]
    norm_num [zpow_neg]
  have hp : witnessState.p.toNat = 4 := by decide
  rw [hE, hp, show (5 / 2 * 2 ^ 4 : ℚ) = f64Value 0x4044000000000000 by rw [hT]; norm_num]
  exact (f64Value_le_iff (by decide) (by decide)).2 (by decide)

theorem witness_CorrectlyRoundedUnitIsLegal :
    (∃ ln : F64 → F64, LnCorrectlyRounded ln) ∧ lnDomain f64One = true ∧ lnDomain f64TwoPow18 = true :=
  ⟨exists_lnCorrectlyRounded, by decide⟩

theorem witness_SmallRangeRisesAsZerosFall :
    (LnOne ln64 ∧ LnPos ln64 ∧ LnMono ln64 ∧ LnFaithful ln64) ∧
      (4 ≤ (18 : BitVec 5).toNat ∧ (18 : BitVec 5).toNat ≤ 18 ∧ 0 < (1 : BitVec 19).toNat ∧
        (1 : BitVec 19).toNat ≤ (262144 : BitVec 19).toNat ∧ (262144 : BitVec 19).toNat ≤ 2 ^ (18 : BitVec 5).toNat) :=
  ⟨⟨ln64_one, ln64_pos, ln64_mono, ln64_faithful⟩, by decide⟩

theorem witness_EstRepeatsItsResponse : witnessState.valid = true := by decide

/-- Two arrays with the same values in other cells. -/
theorem witness_EstDependsOnCellCountsOnly :
    (built 4 [(0, 1)]).inv = true ∧ (built 4 [(15, 1)]).inv = true ∧ (built 4 [(0, 1)]).p = (built 4 [(15, 1)]).p ∧
      ∀ v : Byte, countBelow (fun j => cellOf (built 4 [(0, 1)]) j == v) (2 ^ 4) =
        countBelow (fun j => cellOf (built 4 [(15, 1)]) j == v) (2 ^ 4) := by decide

theorem witness_ScratchAndHistoryHaveNoEffect :
    sameEstimator witnessState { witnessState with acc := 7, vcnt := 7, responses := [0x10000000000000001#65] } :=
  ⟨rfl, rfl, rfl⟩

/-- A constructed state on which an `INIT` in range changes `P`. -/
theorem witness_OnlyInitAndResetChangeTheConfiguration :
    step { witnessState with stream := [.command 0x00000000000000005#66] } =
        .next { State.reset with valid := true, p := 5, pos := 1, responses := [0] } ∧
      ({ witnessState with stream := [.command 0x00000000000000005#66] } : State).stream.head? ≠ some .reset ∧
      witnessState.valid = true ∧ (5 : BitVec 5) ≠ witnessState.p := by
  refine ⟨rfl, by decide, by decide, by decide⟩

theorem witness_RegisterWriteThenRead :
    witnessState.valid = true ∧ 15 < 2 ^ witnessState.p.toNat ∧ Memory.wf witnessState.regs = true ∧
      regRead witnessState 15 = some 1 := by decide

theorem witness_NoCellOutsideTheArray :
    State.reset.valid = false ∧ 2 ^ witnessState.p.toNat ≤ 16 := by decide

/-- The ends of the operands, and the raw form of a reserved word. -/
theorem witness_AssemblerWordsDecodeBack :
    2 ^ 64 - 1 < 2 ^ 64 ∧ 0 < 2 ^ 64 ∧ 3 ≤ 3 ∧ AsmLine.wf (.cmd 3 5) = true ∧
      decode (asmWord (.cmd 3 5)) = .error (.opcodeThree 5) ∧
      asmWord (.new ((2 ^ 64 - 1 : Nat) : Int)) = 0x0FFFFFFFFFFFFFFFF#66 ∧ asmWord (.new (4 : Nat)) = 4#66 := by
  decide

theorem witness_NegativePrecisionFails : -(2 ^ 63) ≤ (-1 : Int) ∧ (-1 : Int) < 0 := by decide

end Sys2Proof.Tests
end

section
/-! PROOFS. Words, steps and binary64 rounding (00_scope rules R6, R9, R11). -/

namespace Sys2Proof.Machine

/-! ### The step of a command word (rules R6, R17, R53) -/

theorem advance_of_stream {s : State} {m : HostMove} {rest : List HostMove} (h : s.stream = m :: rest) :
    advance s = { s with stream := rest, pos := s.pos + 1 } := by
  rw [advance, h, List.tail_cons]

theorem step_of_command {s : State} {w : CmdWord} {rest : List HostMove} (h : s.stream = .command w :: rest) :
    step s = runWord w { s with stream := rest, pos := s.pos + 1 } := by
  rw [step, nextMove, h, List.head?_cons, advance_of_stream h]

theorem runWord_of_decode {w : CmdWord} {i : Instr} (h : decode w = .ok i) (s : State) : runWord w s = exec i s := by
  rw [runWord, h]

/-- Settles O6: the step takes the word off the stream, and the word decodes to the command. -/
theorem stepRunsTheDecodedCommand : Obligations.StepRunsTheDecodedCommand := by
  intro s w rest i hs hi
  rw [step_of_command hs, runWord_of_decode hi]

/-! ### Leading zeros (rule R9) -/

@[simp] theorem clzField_zero (W : Nat) : clzField W 0 = W := if_pos rfl

theorem clzField_of_ne_zero (W : Nat) {w : Nat} (hw : w ≠ 0) : clzField W w = W - 1 - Nat.log2 w := if_neg hw

theorem clzField_le (W w : Nat) : clzField W w ≤ W := by
  unfold clzField
  split <;> omega

/-- The most-significant 1 bit of a `W`-bit value stands just below the bits that `clz_W` counts. -/
theorem clzField_add_log2 {W w : Nat} (hw : w ≠ 0) (hlt : w < 2 ^ W) : clzField W w + Nat.log2 w + 1 = W := by
  have hlog : Nat.log2 w < W := (Nat.log2_lt hw).2 hlt
  rw [clzField_of_ne_zero W hw]
  omega

theorem testBit_of_lt_clzField {W w i : Nat} (hlt : w < 2 ^ W) (hi : i < clzField W w) :
    w.testBit (W - 1 - i) = false := by
  rcases eq_or_ne w 0 with rfl | hw
  · exact Nat.zero_testBit _
  · have hsum := clzField_add_log2 hw hlt
    exact Nat.testBit_lt_two_pow ((Nat.log2_lt hw).1 (by omega))

/-- Settles O22: a bit that is counted is above the most-significant 1 bit, which is the next one. -/
theorem clzCountsLeadingZeros : Obligations.ClzCountsLeadingZeros := by
  intro W w hlt
  refine ⟨clzField_le W w, fun i hi => testBit_of_lt_clzField hlt hi, fun hw => ?_, clzField_zero W⟩
  have hsum := clzField_add_log2 hw hlt
  have hbit : W - 1 - clzField W w = Nat.log2 w := by omega
  exact ⟨clzField_of_ne_zero W hw, by omega, by rw [hbit]; exact Nat.testBit_log2 hw⟩

/-! ### The nearest integer, ties to even -/

/-- `q` is an integer nearest `y`, and even where another is as near. -/
def NearestEven (y : ℚ) (q : Nat) : Prop := |(q : ℚ) - y| ≤ 1 / 2 ∧ (|(q : ℚ) - y| = 1 / 2 → q % 2 = 0)

theorem NearestEven.le_of_le {y : ℚ} {q a : Nat} (h : NearestEven y q) (ha : a ≤ y) : a ≤ q := by
  by_contra hlt
  have hcast : (q : ℚ) + 1 ≤ a := by exact_mod_cast not_le.1 hlt
  linarith [(abs_le.1 h.1).1]

theorem NearestEven.ge_of_ge {y : ℚ} {q b : Nat} (h : NearestEven y q) (hb : y ≤ b) : q ≤ b := by
  by_contra hlt
  have hcast : (b : ℚ) + 1 ≤ q := by exact_mod_cast not_le.1 hlt
  linarith [(abs_le.1 h.1).2]

/-- Any other integer is at least half a unit away, so none is nearer, and on a tie `q` is even. -/
theorem NearestEven.nearest {y : ℚ} {q k : Nat} (h : NearestEven y q) (hk : k ≠ q) :
    |(q : ℚ) - y| ≤ |(k : ℚ) - y| ∧ (|(q : ℚ) - y| = |(k : ℚ) - y| → q % 2 = 0) := by
  obtain ⟨hhalf, heven⟩ := h
  have hgap : (1 : ℚ) ≤ |(k : ℚ) - q| := by
    have : (1 : ℤ) ≤ |(k : ℤ) - q| := Int.one_le_abs (by omega)
    exact_mod_cast this
  have htri : |(k : ℚ) - q| ≤ |(k : ℚ) - y| + |(q : ℚ) - y| := by
    rw [abs_sub_comm (q : ℚ) y]
    exact abs_sub_le _ _ _
  exact ⟨by linarith, fun heq => heven (by linarith)⟩

theorem NearestEven.dist_le {y : ℚ} {q : Nat} (h : NearestEven y q) (k : Nat) : |(q : ℚ) - y| ≤ |(k : ℚ) - y| := by
  rcases eq_or_ne k q with rfl | hne
  · exact le_rfl
  · exact (h.nearest hne).1

theorem NearestEven.unique {y : ℚ} {q r : Nat} (hq : NearestEven y q) (hr : NearestEven y r) : q = r := by
  by_contra hne
  have hqr := hq.nearest (Ne.symm hne)
  have hrq := hr.nearest hne
  have heq := le_antisymm hqr.1 hrq.1
  have hq2 := hqr.2 heq
  have hr2 := hrq.2 heq.symm
  have hdist : |(q : ℤ) - r| ≤ 1 := by
    have : |(q : ℚ) - r| ≤ |(q : ℚ) - y| + |(r : ℚ) - y| := by
      rw [abs_sub_comm (r : ℚ) y]
      exact abs_sub_le _ _ _
    have hone : |(q : ℚ) - r| ≤ 1 := by linarith [hq.1, hr.1]
    exact_mod_cast hone
  have := abs_le.1 hdist
  omega

/-- The integer part `q` of `y = q + f` is nearest up to `f = 1/2`, and `q + 1` from there on. -/
theorem nearestEven_add_fraction (q : Nat) {f : ℚ} (h0 : 0 ≤ f) (h1 : f < 1) :
    NearestEven (q + f) (if 1 / 2 < f ∨ (f = 1 / 2 ∧ q % 2 = 1) then q + 1 else q) := by
  split
  · next hup =>
    have hdist : |((q + 1 : Nat) : ℚ) - (q + f)| = 1 - f := by
      rw [Nat.cast_add, Nat.cast_one, add_sub_add_left_eq_sub, abs_of_pos (sub_pos.2 h1)]
    unfold NearestEven
    rw [hdist]
    rcases hup with hlt | ⟨heq, hodd⟩
    · exact ⟨by linarith, fun h => by linarith⟩
    · exact ⟨by linarith, fun _ => by omega⟩
  · next hdown =>
    have hdist : |(q : ℚ) - (q + f)| = f := by rw [sub_add_cancel_left, abs_neg, abs_of_nonneg h0]
    unfold NearestEven
    rw [hdist]
    push Not at hdown
    obtain ⟨hle, heven⟩ := hdown
    exact ⟨hle, fun h => by have := heven h; omega⟩

theorem nearestEven_roundHalfEven (num : Nat) {den : Nat} (hden : 0 < den) :
    NearestEven ((num : ℚ) / den) (roundHalfEven num den) := by
  have hd : (0 : ℚ) < den := by exact_mod_cast hden
  have hdiv : (num : ℚ) / den = (num / den : Nat) + (num % den : Nat) / (den : ℚ) := by
    rw [div_eq_iff hd.ne', add_mul, div_mul_cancel₀ _ hd.ne']
    exact_mod_cast (Nat.div_add_mod' num den).symm
  have hup : den < 2 * (num % den) ↔ (1 / 2 : ℚ) < (num % den : Nat) / (den : ℚ) := by
    rw [div_lt_div_iff₀ two_pos hd, one_mul, mul_comm _ (2 : ℚ)]
    norm_cast
  have htie : 2 * (num % den) = den ↔ (num % den : Nat) / (den : ℚ) = 1 / 2 := by
    rw [div_eq_div_iff hd.ne' two_ne_zero, one_mul, mul_comm _ (2 : ℚ)]
    norm_cast
  rw [hdiv, roundHalfEven]
  simp only [hup, htie]
  exact nearestEven_add_fraction _ (by positivity) ((div_lt_one hd).2 (by exact_mod_cast Nat.mod_lt _ hden))

/-! ### The exponent and the significand of a fraction (42_estimate rule R82) -/

theorem two_zpow_of_nonneg {k : ℤ} (hk : 0 ≤ k) : (2 : ℚ) ^ k = (2 ^ k.toNat : Nat) := by
  rw [Nat.cast_pow, Nat.cast_two, ← zpow_natCast, Int.toNat_of_nonneg hk]

theorem two_zpow_of_neg {k : ℤ} (hk : ¬ 0 ≤ k) : (2 : ℚ) ^ k = ((2 ^ (-k).toNat : Nat) : ℚ)⁻¹ := by
  rw [← two_zpow_of_nonneg (by omega), ← zpow_neg, neg_neg]

theorem powLeRatio_iff (e : ℤ) (n : Nat) {d : Nat} (hd : 0 < d) :
    powLeRatio e n d = true ↔ (2 : ℚ) ^ e ≤ (n : ℚ) / d := by
  have hd' : (0 : ℚ) < d := by exact_mod_cast hd
  rw [powLeRatio, le_div_iff₀ hd']
  split
  · next he =>
    rw [decide_eq_true_iff, two_zpow_of_nonneg he, mul_comm]
    norm_cast
  · next he =>
    rw [decide_eq_true_iff, two_zpow_of_neg he, inv_mul_le_iff₀ (by positivity), mul_comm]
    norm_cast

theorem two_zpow_le_iff {x : ℚ} (hx : 0 < x) (e : ℤ) : (2 : ℚ) ^ e ≤ x ↔ e ≤ Int.log 2 x := by
  rw [← Int.zpow_le_iff_le_log one_lt_two hx, Nat.cast_two]

theorem two_zpow_log_le {x : ℚ} (hx : 0 < x) : (2 : ℚ) ^ Int.log 2 x ≤ x := (two_zpow_le_iff hx _).2 le_rfl

theorem lt_two_zpow_log_succ {x : ℚ} (hx : 0 < x) : x < (2 : ℚ) ^ (Int.log 2 x + 1) := by
  rw [← not_le, two_zpow_le_iff hx]
  omega

theorem log2_bounds {m : Nat} (hm : 0 < m) :
    (2 : ℚ) ^ (Nat.log2 m : ℤ) ≤ m ∧ (m : ℚ) < 2 ^ ((Nat.log2 m : ℤ) + 1) :=
  ⟨by exact_mod_cast Nat.log2_self_le hm.ne', by exact_mod_cast Nat.lt_log2_self⟩

/-- `ratioExponent` is the integer `e` with `2^e <= n / d < 2^(e+1)`. -/
theorem ratioExponent_eq_log {n d : Nat} (hn : 0 < n) (hd : 0 < d) :
    ratioExponent n d = Int.log 2 ((n : ℚ) / d) := by
  have hn' : (0 : ℚ) < n := by exact_mod_cast hn
  have hd' : (0 : ℚ) < d := by exact_mod_cast hd
  have hx : (0 : ℚ) < (n : ℚ) / d := div_pos hn' hd'
  obtain ⟨hn1, hn2⟩ := log2_bounds hn
  obtain ⟨hd1, hd2⟩ := log2_bounds hd
  have hlow : (Nat.log2 n : ℤ) - Nat.log2 d - 1 ≤ Int.log 2 ((n : ℚ) / d) := by
    rw [← two_zpow_le_iff hx, le_div_iff₀ hd']
    calc (2 : ℚ) ^ ((Nat.log2 n : ℤ) - Nat.log2 d - 1) * d
        ≤ 2 ^ ((Nat.log2 n : ℤ) - Nat.log2 d - 1) * 2 ^ ((Nat.log2 d : ℤ) + 1) := by gcongr
      _ = 2 ^ (Nat.log2 n : ℤ) := by rw [← zpow_add₀ two_ne_zero]; congr 1; ring
      _ ≤ n := hn1
  have hhigh : ¬ (Nat.log2 n : ℤ) - Nat.log2 d + 1 ≤ Int.log 2 ((n : ℚ) / d) := by
    rw [← two_zpow_le_iff hx, not_le, div_lt_iff₀ hd']
    calc (n : ℚ) < 2 ^ ((Nat.log2 n : ℤ) + 1) := hn2
      _ = 2 ^ ((Nat.log2 n : ℤ) - Nat.log2 d + 1) * 2 ^ (Nat.log2 d : ℤ) := by
          rw [← zpow_add₀ two_ne_zero]; congr 1; ring
      _ ≤ 2 ^ ((Nat.log2 n : ℤ) - Nat.log2 d + 1) * d := by gcongr
  simp only [ratioExponent, floorLog2, powLeRatio_iff _ n hd, two_zpow_le_iff hx]
  split <;> omega

/-- The rounded significand of `n / d` at exponent `e`, before the carry. -/
def significandAt (e : ℤ) (n d : Nat) : Nat :=
  if 0 ≤ 52 - e then roundHalfEven (n * 2 ^ (52 - e).toNat) d else roundHalfEven n (d * 2 ^ (-(52 - e)).toNat)

theorem roundedAt_eq (e : ℤ) (n d : Nat) :
    roundedAt e n d = if significandAt e n d = 2 ^ 53 then (e + 1, 2 ^ 52) else (e, significandAt e n d) := rfl

theorem nearestEven_significandAt (e : ℤ) (n : Nat) {d : Nat} (hd : 0 < d) :
    NearestEven ((n : ℚ) / d * 2 ^ (52 - e)) (significandAt e n d) := by
  unfold significandAt
  split
  · next he =>
    rw [two_zpow_of_nonneg he, div_mul_eq_mul_div, ← Nat.cast_mul]
    exact nearestEven_roundHalfEven _ hd
  · next he =>
    rw [two_zpow_of_neg he, ← div_eq_mul_inv, div_div, ← Nat.cast_mul]
    exact nearestEven_roundHalfEven _ (Nat.mul_pos hd (Nat.two_pow_pos _))

/-! ### The word of a rational in the normal range (00_scope rule R11) -/

/-- From `2^-1022` to the greatest finite value. -/
def NormalRange (x : ℚ) : Prop := (2 : ℚ) ^ (-1022 : ℤ) ≤ x ∧ x ≤ (2 ^ 53 - 1) * 2 ^ (971 : ℤ)

/-- `r` is the word of `x` rounded to the 53-bit significand `q`: exponent field `Int.log 2 x + 1023` and fraction
`q - 2^52`, which is the next exponent and fraction 0 where `q = 2^53`. -/
def RoundedWord (x : ℚ) (q : Nat) (r : F64) : Prop :=
  NearestEven (x * 2 ^ (52 - Int.log 2 x)) q ∧ r.toNat = 2 ^ 52 * (Int.log 2 x + 1022).toNat + q

theorem RoundedWord.unique {x : ℚ} {q q' : Nat} {r r' : F64} (h : RoundedWord x q r) (h' : RoundedWord x q' r') :
    r = r' := by
  obtain ⟨hq, hr⟩ := h
  obtain ⟨hq', hr'⟩ := h'
  exact BitVec.eq_of_toNat_eq (by rw [hr, hr', hq.unique hq'])

theorem NormalRange.pos {x : ℚ} (h : NormalRange x) : 0 < x := lt_of_lt_of_le (by positivity) h.1

theorem NormalRange.log_bounds {x : ℚ} (h : NormalRange x) : -1022 ≤ Int.log 2 x ∧ Int.log 2 x ≤ 1023 := by
  have hmax : x < (2 : ℚ) ^ (1024 : ℤ) := by
    calc x ≤ (2 ^ 53 - 1) * 2 ^ (971 : ℤ) := h.2
      _ < (2 : ℚ) ^ (53 : ℤ) * 2 ^ (971 : ℤ) := by gcongr; norm_num
      _ = 2 ^ (1024 : ℤ) := by rw [← zpow_add₀ two_ne_zero]; rfl
  have hlow := (two_zpow_le_iff h.pos _).1 h.1
  have hhigh := mt (two_zpow_le_iff h.pos 1024).2 (not_le.2 hmax)
  omega

/-- The scaled value has 53 bits before its point. -/
theorem scaled_bounds {x : ℚ} (hx : 0 < x) :
    2 ^ 52 ≤ x * 2 ^ (52 - Int.log 2 x) ∧ x * 2 ^ (52 - Int.log 2 x) < 2 ^ 53 := by
  constructor
  · calc (2 : ℚ) ^ 52 = 2 ^ Int.log 2 x * 2 ^ (52 - Int.log 2 x) := by
          rw [← zpow_add₀ two_ne_zero, add_sub_cancel]; rfl
      _ ≤ x * 2 ^ (52 - Int.log 2 x) := by gcongr; exact two_zpow_log_le hx
  · calc x * 2 ^ (52 - Int.log 2 x) < 2 ^ (Int.log 2 x + 1) * 2 ^ (52 - Int.log 2 x) := by
          gcongr; exact lt_two_zpow_log_succ hx
      _ = 2 ^ 53 := by rw [← zpow_add₀ two_ne_zero, add_assoc, add_comm, add_assoc, sub_add_cancel]; rfl

/-- The rounded significand has 53 bits, or is `2^53` and carries; at the greatest exponent it does not carry. -/
theorem NormalRange.significand_bounds {x : ℚ} (h : NormalRange x) {q : Nat}
    (hq : NearestEven (x * 2 ^ (52 - Int.log 2 x)) q) :
    2 ^ 52 ≤ q ∧ q ≤ 2 ^ 53 ∧ (Int.log 2 x = 1023 → q ≤ 2 ^ 53 - 1) := by
  obtain ⟨hlow, hhigh⟩ := scaled_bounds h.pos
  refine ⟨hq.le_of_le (by exact_mod_cast hlow), hq.ge_of_ge (by exact_mod_cast hhigh.le), fun htop => ?_⟩
  refine hq.ge_of_ge ?_
  calc x * 2 ^ (52 - Int.log 2 x) ≤ (2 ^ 53 - 1) * 2 ^ (971 : ℤ) * 2 ^ (52 - Int.log 2 x) := by
        gcongr; exact h.2
    _ = ((2 ^ 53 - 1 : Nat) : ℚ) := by
        rw [htop, mul_assoc, ← zpow_add₀ two_ne_zero]; norm_num

/-- `f64` of a fraction in the normal range is the fraction's rounded word (42_estimate rule R82). -/
theorem exists_roundedWord_f64Of {n d : Nat} (hn : 0 < n) (hd : 0 < d) (h : NormalRange ((n : ℚ) / d)) :
    ∃ q, RoundedWord ((n : ℚ) / d) q (f64Of n d) := by
  have hnear := nearestEven_significandAt (Int.log 2 ((n : ℚ) / d)) n hd
  obtain ⟨hlow, hhigh, htop⟩ := h.significand_bounds hnear
  obtain ⟨he, he'⟩ := h.log_bounds
  refine ⟨_, hnear, ?_⟩
  rw [f64Of, if_neg hn.ne', f64Rat, ratioExponent_eq_log hn hd, roundedAt_eq]
  split
  · next hcarry =>
    dsimp only
    rw [if_pos (by omega), f64Pack_toNat (by omega) (by omega) le_rfl (by decide)]
    omega
  · next hkeep =>
    rw [if_pos ⟨he, he'⟩, f64Pack_toNat he he' hlow (by omega)]
    omega

/-! ### The nearest word -/

theorem RoundedWord.proper {x : ℚ} {q : Nat} {r : F64} (h : NormalRange x) (hr : RoundedWord x q r) :
    f64Proper r = true := by
  obtain ⟨hnear, hword⟩ := hr
  obtain ⟨hlow, hhigh, htop⟩ := h.significand_bounds hnear
  obtain ⟨he, he'⟩ := h.log_bounds
  rw [f64Proper_iff, hword]
  omega

/-- The words of exponent field `E + 1` hold the significands as multiples of `2^E`, and the next word after them is
the significand `2^53`. -/
theorem unitsOf_significand (E : Nat) {q : Nat} (hq : 2 ^ 52 ≤ q) (hq' : q ≤ 2 ^ 53) :
    unitsOf (2 ^ 52 * E + q) = q * 2 ^ E := by
  unfold unitsOf
  rcases hq'.lt_or_eq with hlt | rfl
  · have hexp : (2 ^ 52 * E + q) / 2 ^ 52 = E + 1 := by omega
    have hfrac : (2 ^ 52 * E + q) % 2 ^ 52 = q - 2 ^ 52 := by omega
    rw [hexp, hfrac, if_neg (by omega), Nat.add_sub_cancel, Nat.add_sub_cancel' hq]
  · have hexp : (2 ^ 52 * E + 2 ^ 53) / 2 ^ 52 = E + 2 := by omega
    have hfrac : (2 ^ 52 * E + 2 ^ 53) % 2 ^ 52 = 0 := by omega
    rw [hexp, hfrac, if_neg (by omega), show E + 2 - 1 = E + 1 from rfl, pow_succ' 2 E]
    ring

/-- A value is a multiple of `2^E` units, or is below every significand of exponent field `E + 1`. -/
theorem unitsOf_multiple_or_lt (E w : Nat) : (∃ k, unitsOf w = k * 2 ^ E) ∨ unitsOf w < 2 ^ 52 * 2 ^ E := by
  rcases Nat.lt_or_ge w (2 ^ 52 * E + 2 ^ 52) with hlt | hge
  · rw [← unitsOf_significand E le_rfl (by decide)]
    exact .inr (unitsOf_strictMono hlt)
  · obtain ⟨j, hj⟩ : ∃ j, w / 2 ^ 52 - 1 = j + E := ⟨w / 2 ^ 52 - 1 - E, by omega⟩
    rw [unitsOf, hj, pow_add, ← mul_assoc]
    exact .inl ⟨_, rfl⟩

theorem units_scaled {e : ℤ} (he : -1022 ≤ e) (t : ℚ) :
    t * (2 ^ (e + 1022).toNat : Nat) * (2 : ℚ) ^ (-1074 : ℤ) = t * 2 ^ (e - 52) := by
  rw [← two_zpow_of_nonneg (by omega), mul_assoc, ← zpow_add₀ two_ne_zero, add_assoc]
  rfl

/-- The value of a proper word in units in the last place at exponent `e` is an integer, or too small for `e`. -/
theorem exists_value_scaled {e : ℤ} (he : -1022 ≤ e) {v : F64} (hv : f64Proper v = true) :
    ∃ t : ℚ, f64Value v = t * 2 ^ (e - 52) ∧ ((∃ k : Nat, t = k) ∨ t < (2 ^ 52 : Nat)) := by
  have hlt : v.toNat < 2 ^ 63 := by have := f64Proper_iff.1 hv; omega
  have hpos : (0 : ℚ) < (2 ^ (e + 1022).toNat : Nat) := by positivity
  refine ⟨unitsOf v.toNat / (2 ^ (e + 1022).toNat : Nat), ?_, ?_⟩
  · rw [← units_scaled he, div_mul_cancel₀ _ hpos.ne', f64Value_eq_units hlt]
  · rcases unitsOf_multiple_or_lt (e + 1022).toNat v.toNat with ⟨k, hk⟩ | hsmall
    · exact .inl ⟨k, (div_eq_iff hpos.ne').2 (by exact_mod_cast hk)⟩
    · exact .inr ((div_lt_iff₀ hpos).2 (by exact_mod_cast hsmall))

theorem RoundedWord.value {x : ℚ} {q : Nat} {r : F64} (h : NormalRange x) (hr : RoundedWord x q r) :
    f64Value r = q * 2 ^ (Int.log 2 x - 52) := by
  obtain ⟨hlow, hhigh, -⟩ := h.significand_bounds hr.1
  have hlt : r.toNat < 2 ^ 63 := by have := f64Proper_iff.1 (hr.proper h); omega
  rw [f64Value_eq_units hlt, hr.2, unitsOf_significand _ hlow hhigh, ← units_scaled h.log_bounds.1, Nat.cast_mul]

/-- `q` is nearest to `y` also among the numbers below some integer `B <= y`, since `B` is nearer than they are. -/
theorem NearestEven.nearest_of_nat_or_lt {y t : ℚ} {q B : Nat} (h : NearestEven y q) (hy : B ≤ y)
    (ht : (∃ k : Nat, t = k) ∨ t < B) (hne : t ≠ q) :
    |(q : ℚ) - y| ≤ |t - y| ∧ (|(q : ℚ) - y| = |t - y| → q % 2 = 0) := by
  rcases ht with ⟨k, rfl⟩ | hlt
  · exact h.nearest (by exact_mod_cast hne)
  · have hfar : |(B : ℚ) - y| < |t - y| := by
      rw [abs_of_nonpos (by linarith), abs_of_nonpos (by linarith)]
      linarith
    have hfarther := (h.dist_le B).trans_lt hfar
    exact ⟨hfarther.le, fun heq => absurd heq hfarther.ne⟩

/-- No proper word is nearer than the rounded word, and on a tie its last bit is 0. -/
theorem RoundedWord.nearest {x : ℚ} {q : Nat} {r v : F64} (h : NormalRange x) (hr : RoundedWord x q r)
    (hv : f64Proper v = true) (hne : v ≠ r) :
    |f64Value r - x| ≤ |f64Value v - x| ∧ (|f64Value r - x| = |f64Value v - x| → r.toNat % 2 = 0) := by
  obtain ⟨t, hval, ht⟩ := exists_value_scaled h.log_bounds.1 hv
  have hulp : (0 : ℚ) < 2 ^ (Int.log 2 x - 52) := by positivity
  have hx : x = x * 2 ^ (52 - Int.log 2 x) * 2 ^ (Int.log 2 x - 52) := by
    rw [mul_assoc, ← zpow_add₀ two_ne_zero, sub_add_sub_cancel, sub_self, zpow_zero, mul_one]
  have hdist : ∀ u : ℚ, |u * 2 ^ (Int.log 2 x - 52) - x| =
      |u - x * 2 ^ (52 - Int.log 2 x)| * 2 ^ (Int.log 2 x - 52) := by
    intro u
    rw [← abs_of_pos hulp, ← abs_mul, abs_of_pos hulp, sub_mul, ← hx]
  have htq : t ≠ q := by
    rintro rfl
    exact hne (f64Value_inj hv (hr.proper h) (hval.trans (hr.value h).symm))
  obtain ⟨hle, htie⟩ := hr.1.nearest_of_nat_or_lt (by exact_mod_cast (scaled_bounds h.pos).1) ht htq
  rw [hr.value h, hval, hdist, hdist, mul_le_mul_iff_left₀ hulp, mul_left_inj' hulp.ne', hr.2]
  exact ⟨hle, fun heq => by have := htie heq; omega⟩

theorem normalRange_div {n d : Nat} (hd : 0 < d) (hlow : d ≤ n * 2 ^ 1022)
    (hhigh : n ≤ d * (2 ^ 971 * (2 ^ 53 - 1))) : NormalRange ((n : ℚ) / d) := by
  have hd' : (0 : ℚ) < d := by exact_mod_cast hd
  have hlow' : (d : ℚ) ≤ n * 2 ^ 1022 := by
    rw [← Nat.cast_two, ← Nat.cast_pow, ← Nat.cast_mul]
    exact Nat.cast_le.2 hlow
  have hhigh' : (n : ℚ) ≤ d * (2 ^ 971 * ((2 ^ 53 - 1 : Nat) : ℚ)) := by
    rw [← Nat.cast_two, ← Nat.cast_pow, ← Nat.cast_mul, ← Nat.cast_mul]
    exact Nat.cast_le.2 hhigh
  constructor
  · rw [le_div_iff₀ hd', zpow_neg, inv_mul_le_iff₀ (by positivity), mul_comm]
    exact hlow'
  · rw [div_le_iff₀' hd', mul_comm (2 ^ 53 - 1 : ℚ)]
    exact hhigh'.trans_eq (by rw [Nat.cast_sub (by decide), Nat.cast_pow, Nat.cast_two, Nat.cast_one]; rfl)

/-- Settles O36: `f64` is the rounded word, which no proper word is nearer than. -/
theorem roundingGivesTheNearestValue : Obligations.RoundingGivesTheNearestValue := by
  intro n d hn hd hlow hhigh
  have hrange := normalRange_div hd hlow hhigh
  obtain ⟨q, hr⟩ := exists_roundedWord_f64Of hn hd hrange
  refine ⟨hr.proper hrange, fun v hv => ?_⟩
  by_cases hne : v = f64Of n d
  · exact ⟨hne ▸ le_rfl, fun hne' => absurd hne hne'⟩
  · obtain ⟨hle, htie⟩ := hr.nearest hrange hv hne
    exact ⟨hle, fun _ => htie⟩

/-! ### The operations (rules R11, R82) -/

/-- `f64` depends only on the value of the fraction. -/
theorem f64Of_congr {n d n' d' : Nat} (hn : 0 < n) (hd : 0 < d) (hd' : 0 < d') (h : NormalRange ((n : ℚ) / d))
    (heq : (n' : ℚ) / d' = (n : ℚ) / d) : f64Of n' d' = f64Of n d := by
  have hn' : 0 < n' := by
    rw [Nat.pos_iff_ne_zero]
    rintro rfl
    rw [Nat.cast_zero, zero_div] at heq
    exact h.pos.ne heq
  obtain ⟨q, hr⟩ := exists_roundedWord_f64Of hn hd h
  obtain ⟨q', hr'⟩ := exists_roundedWord_f64Of hn' hd' (heq ▸ h)
  exact (heq ▸ hr').unique hr

/-- `f64Scaled` rounds `(n' / d') * 2^k`, whatever fraction equals it. -/
theorem f64Scaled_eq {n d n' d' : Nat} {k : ℤ} (hn : 0 < n) (hd : 0 < d) (hd' : 0 < d')
    (h : NormalRange ((n : ℚ) / d)) (heq : (n : ℚ) / d = (n' : ℚ) / d' * 2 ^ k) : f64Scaled k n' d' = f64Of n d := by
  unfold f64Scaled
  split
  · next hk =>
    refine f64Of_congr hn hd hd' h ?_
    rw [heq, two_zpow_of_nonneg hk, div_mul_eq_mul_div, Nat.cast_mul]
  · next hk =>
    refine f64Of_congr hn hd (Nat.mul_pos hd' (Nat.two_pow_pos _)) h ?_
    rw [heq, two_zpow_of_neg hk, ← div_eq_mul_inv, div_div, Nat.cast_mul]

section
variable {a b : F64} {n d : Nat} (ha : f64Proper a = true) (hb : f64Proper b = true) (hn : 0 < n) (hd : 0 < d)
  (h : NormalRange ((n : ℚ) / d))
include ha hb hn hd h

theorem fmul_eq_f64Of (heq : (n : ℚ) / d = f64Value a * f64Value b) : fmul a b = f64Of n d := by
  rw [fmul, ha, hb, Bool.and_self, if_pos rfl]
  refine f64Scaled_eq hn hd one_pos h ?_
  rw [heq, f64Value, f64Value, zpow_add₀ two_ne_zero]
  push_cast
  ring

theorem fdiv_eq_f64Of (hpos : 0 < f64Value b) (heq : (n : ℚ) / d = f64Value a / f64Value b) :
    fdiv a b = f64Of n d := by
  have hsig : f64Significand b ≠ 0 := by
    intro hzero
    rw [f64Value, hzero, Nat.cast_zero, zero_mul] at hpos
    exact hpos.false
  rw [fdiv, ha, hb, if_pos (by simpa using hsig)]
  refine f64Scaled_eq hn hd (Nat.pos_of_ne_zero hsig) h ?_
  rw [heq, f64Value, f64Value, zpow_sub₀ two_ne_zero, mul_div_mul_comm]

theorem fadd_eq_f64Of (heq : (n : ℚ) / d = f64Value a + f64Value b) : fadd a b = f64Of n d := by
  have hscale : ∀ {k p : ℤ}, k ≤ p → (2 : ℚ) ^ p = (2 ^ (p - k).toNat : Nat) * 2 ^ k := fun hkp => by
    rw [← two_zpow_of_nonneg (sub_nonneg.2 hkp), ← zpow_add₀ two_ne_zero, sub_add_cancel]
  rw [fadd, ha, hb, Bool.and_self, if_pos rfl]
  refine f64Scaled_eq hn hd one_pos h ?_
  rw [heq, f64Value, f64Value, hscale (min_le_left (f64Power a) (f64Power b)),
    hscale (min_le_right (f64Power a) (f64Power b))]
  push_cast
  ring

end

/-- Settles O37: each operation takes its exact result, as a fraction, to `f64`, which depends only on the value. -/
theorem primitivesRoundTheExactResult : Obligations.PrimitivesRoundTheExactResult := by
  intro a b n d ha hb hn hd hlow hhigh
  have hrange := normalRange_div hd hlow hhigh
  exact ⟨fmul_eq_f64Of ha hb hn hd hrange, fdiv_eq_f64Of ha hb hn hd hrange, fadd_eq_f64Of ha hb hn hd hrange⟩

end Sys2Proof.Machine
end

section
/-! PROOFS. The state, its invariant and the estimator (10_state). -/

namespace Sys2Proof.Machine

/-! ### The reset state (rules R23, R25) -/

/-- Settles O13: the fields are the reset column, and with `VALID = 0` there is no cell. -/
theorem resetStateHoldsTheSpecValues : Obligations.ResetStateHoldsTheSpecValues :=
  ⟨reset_valid, reset_p, reset_acc, reset_vcnt, fun _ => regRead_eq_none rfl⟩

/-- Settles O14: the empty array with `VALID = 0` and `P = 0`. -/
theorem resetStateMeetsTheInvariant : Obligations.ResetStateMeetsTheInvariant := by
  unfold Obligations.ResetStateMeetsTheInvariant
  decide

/-! ### Accesses with no cell (rule R30) -/

theorem hasCell_eq_false {s : State} {j : Nat} (h : s.valid = false ∨ cellCount s.p ≤ j) : hasCell s j = false := by
  rw [← Bool.not_eq_true, hasCell_iff]
  rintro ⟨hv, hj⟩
  rcases h with h | h
  · rw [h] at hv
    cases hv
  · omega

/-- Settles O51: an access to a cell that does not exist gives nothing. -/
theorem noCellOutsideTheArray : Obligations.NoCellOutsideTheArray := fun _ _ h =>
  have hcell := hasCell_eq_false h
  ⟨regRead_eq_none hcell, fun v => regWrite_eq_none v hcell⟩

/-! ### Each command's answer, by `VALID` (rules R18, R61, R71) -/

/-- The array after `OBS` has raised the cell `j` to `rho`, if `rho` is greater (41_observe rule R68). -/
def raisedCells (cs : Cells) (j rho : Nat) : Cells :=
  if (cellAt cs j).toNat < rho then cellPut cs j (BitVec.ofNat 8 rho) else cs

/-- What `OBS h` leaves of a constructed state, before its response. -/
def observed (h : Arg) (s : State) : State :=
  setCells (raisedCells s.regs (hashIndex s.p h) (hashRho s.p h)) s

theorem regRaise_hash {s : State} (hv : s.valid = true) (h : Arg) :
    regRaise s (hashIndex s.p h) (hashRho s.p h) = some (observed h s) :=
  regRaise_eq _ (hasCell_hashIndex hv h)

theorem exec_obs_of_valid {s : State} (hv : s.valid = true) (h : Arg) :
    exec (.obs h) s = .next (pushResponse (okWord 0) (observed h s)) := by
  rw [exec, execObs, whenConstructed_of_valid hv, regRaise_hash hv]
  rfl

theorem exec_obs_of_not_valid {s : State} (hv : s.valid = false) (h : Arg) :
    exec (.obs h) s = .next (pushResponse (causeWord .noEstimator) s) := by
  rw [exec, execObs, whenConstructed_of_not_valid hv]

theorem exec_est_of_valid {s : State} (hv : s.valid = true) :
    exec .est s = .next (pushResponse
      (okWord (estimateWord ln64 s.p (scanAcc s.p s.regs) (scanVcnt s.p s.regs))) (scan s)) := by
  rw [exec, execEst, whenConstructed_of_valid hv]
  rfl

theorem exec_est_of_not_valid {s : State} (hv : s.valid = false) :
    exec .est s = .next (pushResponse (causeWord .noEstimator) s) := by
  rw [exec, execEst, whenConstructed_of_not_valid hv]

theorem exec_init_of_inRange {n : Arg} (hn : precisionInRange n = true) (s : State) :
    exec (.init n) s = .next (pushResponse (okWord 0) (construct n s)) :=
  if_pos hn

theorem exec_init_of_outOfRange {n : Arg} (hn : precisionInRange n = false) (s : State) :
    exec (.init n) s = .next (pushResponse (causeWord .precisionOutOfRange) s) :=
  if_neg (by simp [hn])

theorem runWord_of_reserved {w : CmdWord} {r : Reserved} (h : decode w = .error r) (s : State) :
    runWord w s = .next (pushResponse (causeWord .reservedEncoding) s) := by
  rw [runWord, h]
  exact execReserved_eq r s

/-- Settles O20: both commands stop at the check of `VALID`, and `{1, 3}` is the word of cause 3. -/
theorem noEstimatorGivesCauseThree : Obligations.NoEstimatorGivesCauseThree := fun _ hv =>
  ⟨exec_obs_of_not_valid hv, exec_est_of_not_valid hv⟩

/-! ### Words on two states with the same estimator (rules R22, R72, R99) -/

/-- Two outcomes, from `s` and `s'`, are next states that add the same response and hold the same estimator. -/
def AnswerAlike (s s' : State) (o o' : Host.Outcome State Fault Refusal) : Prop :=
  ∃ (t t' : State) (r : RspWord), o = .next t ∧ o' = .next t' ∧
    t.responses = s.responses ++ [r] ∧ t'.responses = s'.responses ++ [r] ∧ sameEstimator t t'

/-- One response added to states that hold the same estimator and the responses of `s` and `s'`. -/
theorem answerAlike_pushResponse {s s' u u' : State} (r : RspWord) (hu : u.responses = s.responses)
    (hu' : u'.responses = s'.responses) (h : sameEstimator u u') :
    AnswerAlike s s' (.next (pushResponse r u)) (.next (pushResponse r u')) :=
  ⟨_, _, r, rfl, rfl, by simp [hu], by simp [hu'], h⟩

/-- Every command reads nothing but the estimator. -/
theorem exec_answerAlike (i : Instr) {s s' : State} (h : sameEstimator s s') :
    AnswerAlike s s' (exec i s) (exec i s') := by
  have ⟨hvalid, hp, hregs⟩ := h
  cases i with
  | init n =>
    cases hn : precisionInRange n with
    | true =>
      rw [exec_init_of_inRange hn, exec_init_of_inRange hn]
      exact answerAlike_pushResponse _ rfl rfl ⟨rfl, rfl, rfl⟩
    | false =>
      rw [exec_init_of_outOfRange hn, exec_init_of_outOfRange hn]
      exact answerAlike_pushResponse _ rfl rfl h
  | obs a =>
    cases hv : s.valid with
    | true =>
      rw [exec_obs_of_valid hv, exec_obs_of_valid (hvalid ▸ hv)]
      exact answerAlike_pushResponse _ rfl rfl ⟨hvalid, hp, by simp [observed, hp, hregs]⟩
    | false =>
      rw [exec_obs_of_not_valid hv, exec_obs_of_not_valid (hvalid ▸ hv)]
      exact answerAlike_pushResponse _ rfl rfl h
  | est =>
    cases hv : s.valid with
    | true =>
      rw [exec_est_of_valid hv, exec_est_of_valid (hvalid ▸ hv), hp, hregs]
      exact answerAlike_pushResponse _ rfl rfl h
    | false =>
      rw [exec_est_of_not_valid hv, exec_est_of_not_valid (hvalid ▸ hv)]
      exact answerAlike_pushResponse _ rfl rfl h

/-- Settles O48: a command reads only the estimator, and a reserved word reads nothing. -/
theorem scratchAndHistoryHaveNoEffect : Obligations.ScratchAndHistoryHaveNoEffect := by
  intro w s s' h
  change AnswerAlike s s' (runWord w s) (runWord w s')
  cases hw : decode w with
  | ok i =>
    rw [runWord_of_decode hw, runWord_of_decode hw]
    exact exec_answerAlike i h
  | error r =>
    rw [runWord_of_reserved hw, runWord_of_reserved hw]
    exact answerAlike_pushResponse _ rfl rfl h

/-- Every word is answered with a next state (70_reset rule R116). -/
theorem exists_runWord (w : CmdWord) (s : State) : ∃ t, runWord w s = .next t := by
  obtain ⟨t, -, -, ht, -⟩ := scratchAndHistoryHaveNoEffect w s s ⟨rfl, rfl, rfl⟩
  exact ⟨t, ht⟩

/-! ### What a word does to the estimator -/

/-- What the word `w` does to the estimator of `s`: `INIT` in range constructs a new one, `OBS` may raise the cell it
selects, and every other word keeps it. -/
inductive EstimatorCase (w : CmdWord) (s t : State) : Prop where
  | constructed (n : Arg) (hw : decode w = .ok (.init n)) (hn : precisionInRange n = true)
      (ht : sameEstimator t (construct n s))
  | raised (h : Arg) (hv : s.valid = true) (ht : sameEstimator t (observed h s))
  | kept (ht : sameEstimator t s)

theorem estimatorCase_of_runWord {w : CmdWord} {s t : State} (h : runWord w s = .next t) : EstimatorCase w s t := by
  rcases runWord_cases h with ⟨i, hw, hi⟩ | ⟨r, -, rfl⟩
  · cases exec_cases hi with
    | constructed n hn ht => exact .constructed n hw hn (ht ▸ ⟨rfl, rfl, rfl⟩)
    | outOfRange n hn ht => exact .kept (ht ▸ ⟨rfl, rfl, rfl⟩)
    | observed a hv u hu ht =>
      obtain rfl : observed a s = u := Option.some.inj ((regRaise_hash hv a).symm.trans hu)
      exact .raised a hv (ht ▸ ⟨rfl, rfl, rfl⟩)
    | obsUnconstructed a hv ht => exact .kept (ht ▸ ⟨rfl, rfl, rfl⟩)
    | estimated hv ht => exact .kept (ht ▸ ⟨rfl, rfl, rfl⟩)
    | estUnconstructed hv ht => exact .kept (ht ▸ ⟨rfl, rfl, rfl⟩)
  · exact .kept ⟨rfl, rfl, rfl⟩

/-! ### The invariant (rule R23) -/

theorem cellsInRange_iff {p : BitVec 5} {cells : Cells} :
    cellsInRange p cells = true ↔ ∀ c ∈ cells, c.1 < cellCount p ∧ c.2.toNat ≤ residualWidth p := by
  simp [cellsInRange]

theorem inv_iff_of_valid {s : State} (hv : s.valid = true) :
    s.inv = true ↔
      Memory.wf s.regs = true ∧ 4 ≤ s.p.toNat ∧ s.p.toNat ≤ 18 ∧ cellsInRange s.p s.regs = true := by
  simp only [State.inv, hv, if_true, Bool.and_eq_true, decide_eq_true_eq, and_assoc]
  rfl

theorem wf_of_inv {s : State} (h : s.inv = true) : Memory.wf s.regs = true :=
  ((Bool.and_eq_true _ _).mp h).1

/-- The invariant speaks of the estimator only. -/
theorem inv_eq_of_sameEstimator {s t : State} (h : sameEstimator s t) : s.inv = t.inv := by
  obtain ⟨hvalid, hp, hregs⟩ := h
  rw [State.inv, State.inv, hvalid, hp, hregs]

theorem inv_construct {n : Arg} (hn : precisionInRange n = true) (s : State) : (construct n s).inv = true := by
  have hp := setWidth_toNat_of_inRange hn
  obtain ⟨hlow, hhigh⟩ := precisionInRange_iff.1 hn
  rw [inv_iff_of_valid (construct_valid n s), construct_p, construct_regs, hp]
  exact ⟨wf_nil, hlow, hhigh, rfl⟩

theorem inv_resetBlock (s : State) : (resetBlock s).inv = true := rfl

/-- `rho` is at most the width of the residual, so a raised array stays in range. -/
theorem cellsInRange_raisedCells {p : BitVec 5} {cs : Cells} (h : cellsInRange p cs = true) (a : Arg) :
    cellsInRange p (raisedCells cs (hashIndex p a) (hashRho p a)) = true := by
  rw [cellsInRange_iff] at h ⊢
  intro c hc
  rcases mem_raised hc with hc | rfl
  · exact h c hc
  · refine ⟨hashIndex_lt p a, ?_⟩
    rw [BitVec.toNat_ofNat, Nat.mod_eq_of_lt (hashRho_lt p a)]
    exact hashRho_le p a

theorem inv_observed {s : State} (hv : s.valid = true) (h : s.inv = true) (a : Arg) : (observed a s).inv = true := by
  obtain ⟨hwf, hlow, hhigh, hcells⟩ := (inv_iff_of_valid hv).1 h
  exact (inv_iff_of_valid (s := observed a s) hv).2
    ⟨(raised_spec hwf _ (hashRho_lt _ _)).1, hlow, hhigh, cellsInRange_raisedCells hcells a⟩

theorem inv_runWord {w : CmdWord} {s t : State} (hinv : s.inv = true) (h : runWord w s = .next t) :
    t.inv = true := by
  cases estimatorCase_of_runWord h with
  | constructed n hw hn ht => exact (inv_eq_of_sameEstimator ht).trans (inv_construct hn s)
  | raised a hv ht => exact (inv_eq_of_sameEstimator ht).trans (inv_observed hv hinv a)
  | kept ht => exact (inv_eq_of_sameEstimator ht).trans hinv

/-- Settles O15: an idle step keeps the state, a reset leaves the empty estimator, and a word keeps the invariant. -/
theorem stepKeepsTheInvariant : Obligations.StepKeepsTheInvariant := by
  intro s t hinv h
  rcases step_cases h with ⟨-, rfl⟩ | ⟨rest, -, rfl⟩ | ⟨w, rest, -, hword⟩
  · exact hinv
  · exact inv_resetBlock _
  · exact inv_runWord (s := advance s) hinv hword

/-! ### Cells and configuration between constructions (rules R18, R19, R69) -/

theorem regRead_eq_of_sameEstimator {s t : State} (h : sameEstimator s t) (j : Nat) : regRead s j = regRead t j := by
  obtain ⟨hvalid, hp, hregs⟩ := h
  rw [regRead, regRead, hasCell, hasCell, hvalid, hp, hregs]

theorem cellAt_le_raisedCells {cs : Cells} (hw : Memory.wf cs = true) (j : Nat) {rho : Nat} (hr : rho < 2 ^ 8)
    (k : Nat) : (cellAt cs k).toNat ≤ (cellAt (raisedCells cs j rho) k).toNat := by
  obtain ⟨-, hsame, hother⟩ := raised_spec hw j hr
  rcases eq_or_ne k j with rfl | hk
  · exact (le_max_left _ _).trans_eq hsame.symm
  · exact (congrArg BitVec.toNat (hother k hk)).ge

/-- `OBS` lowers no cell. -/
theorem regRead_observed {s : State} (hw : Memory.wf s.regs = true) (h : Arg) {j : Nat} {a : Byte}
    (ha : regRead s j = some a) : ∃ b, regRead (observed h s) j = some b ∧ a.toNat ≤ b.toNat := by
  obtain ⟨hcell, rfl⟩ := regRead_eq_some.1 ha
  exact ⟨_, regRead_of_hasCell (s := observed h s) hcell, cellAt_le_raisedCells hw _ (hashRho_lt _ _) j⟩

/-- Settles O29: a word that constructs nothing keeps the estimator or raises one cell of it. -/
theorem cellsNeverFallBetweenConstructions : Obligations.CellsNeverFallBetweenConstructions := by
  intro w s hinv hout
  obtain ⟨t, ht⟩ := exists_runWord w s
  refine ⟨t, ht, ?_⟩
  cases estimatorCase_of_runWord ht with
  | constructed n hw hn _ =>
    have hin := precisionInRange_iff.1 hn
    have := hout n hw
    omega
  | raised h _ hsame =>
    refine ⟨hsame.1, hsame.2.1, fun j a ha => ?_⟩
    rw [regRead_eq_of_sameEstimator hsame]
    exact regRead_observed (wf_of_inv hinv) h ha
  | kept hsame =>
    refine ⟨hsame.1, hsame.2.1, fun j a ha => ⟨a, ?_, le_rfl⟩⟩
    rwa [regRead_eq_of_sameEstimator hsame]

/-- A word keeps `VALID` and `P`, unless it is an `INIT` in range, which sets `VALID`. -/
theorem config_runWord {w : CmdWord} {s t : State} (h : runWord w s = .next t) :
    (t.valid = s.valid ∧ t.p = s.p) ∨
      t.valid = true ∧ ∃ n, decode w = .ok (.init n) ∧ 4 ≤ n.toNat ∧ n.toNat ≤ 18 := by
  cases estimatorCase_of_runWord h with
  | constructed n hw hn ht => exact .inr ⟨ht.1, n, hw, precisionInRange_iff.1 hn⟩
  | raised a _ ht => exact .inl ⟨ht.1, ht.2.1⟩
  | kept ht => exact .inl ⟨ht.1, ht.2.1⟩

/-- Settles O49: an idle step changes nothing, a reset is excluded, and only `INIT` in range writes the two fields. -/
theorem onlyInitAndResetChangeTheConfiguration : Obligations.OnlyInitAndResetChangeTheConfiguration := by
  intro s t h hreset
  rcases step_cases h with ⟨-, rfl⟩ | ⟨rest, hs, -⟩ | ⟨w, rest, hs, hword⟩
  · exact ⟨id, fun hchange => by simp at hchange⟩
  · exact absurd (by rw [hs, List.head?_cons]) hreset
  · rcases config_runWord hword with ⟨hvalid, hp⟩ | ⟨hvalid, n, hw, hn⟩
    · rw [advance_valid] at hvalid
      rw [advance_p] at hp
      exact ⟨fun hv => hvalid.trans hv, fun hchange => by simp [hvalid, hp] at hchange⟩
    · exact ⟨fun _ => hvalid, fun _ => ⟨w, n, by rw [hs, List.head?_cons], hw, hn⟩⟩

end Sys2Proof.Machine
end

section
/-! PROOFS. The register array and the digest bytes (20_memory). -/

namespace Sys2Proof.Machine

/-! ### A write to a cell that exists (rules R30, R37) -/

theorem regRead_setCells (s : State) (cells : Cells) (j : Nat) :
    regRead (setCells cells s) j = if hasCell s j then some (cellAt cells j) else none := rfl

theorem regRead_written_same {s : State} (hw : Memory.wf s.regs = true) {j : Nat} (hj : hasCell s j = true)
    (v : Byte) : regRead (setCells (cellPut s.regs j v) s) j = some v := by
  rw [regRead_setCells, if_pos hj, cellAt_cellPut_same hw]

theorem regRead_written_other (s : State) {j k : Nat} (v : Byte) (hk : k ≠ j) :
    regRead (setCells (cellPut s.regs j v) s) k = regRead s k := by
  rw [regRead_setCells, cellAt_cellPut_other _ _ hk, regRead]

theorem setCells_cellPut_of_regRead {s : State} (hw : Memory.wf s.regs = true) {j : Nat} {v : Byte}
    (hv : regRead s j = some v) : setCells (cellPut s.regs j v) s = s := by
  obtain ⟨-, rfl⟩ := regRead_eq_some.1 hv
  rw [cellPut_cellAt hw]
  rfl

/-- Settles O50: the written state is the one whose array is `cellPut`, which is canonical and so unique. -/
theorem registerWriteThenRead : Obligations.RegisterWriteThenRead := by
  intro s j v hvalid hj hw
  have hcell : hasCell s j = true := hasCell_iff.2 ⟨hvalid, hj⟩
  exact ⟨_, regWrite_of_hasCell v hcell, regRead_written_same hw hcell v,
    fun _ hk => regRead_written_other s v hk, setCells_cellPut_of_regRead hw⟩

/-! ### The bytes of the hash value (rule R34) -/

theorem byteAbove_append {n : Nat} (x : BitVec n) (y : Byte) (k : Nat) :
    (x ++ y).extractLsb' (k + 8) 8 = x.extractLsb' k 8 := by
  rw [BitVec.extractLsb'_append_eq_of_le (Nat.le_add_left 8 k), Nat.add_sub_cancel]

/-- Settles O52: byte `i` has `7 - i` bytes appended after it, each of which moves it up by 8 bits. -/
theorem digestBytesAreBigEndian : Obligations.DigestBytesAreBigEndian := by
  intro b i
  unfold digestWord
  fin_cases i
  all_goals
    simp only [Nat.reduceMul, Nat.reduceSub, byteAbove_append, BitVec.extractLsb'_append_eq_right,
      BitVec.extractLsb'_eq_self]
    rfl

end Sys2Proof.Machine
end

section
/-! PROOFS. Command words, their responses and the assembler (30_encoding). -/

namespace Sys2Proof

/-! ### A command and its one word (rules R43 to R47) -/

theorem decode_encode (i : Instr) : decode (encode i) = .ok i := by
  cases i with
  | init n => exact decode_commandWord 0 n
  | obs h => exact decode_commandWord 1 h
  | est => exact decode_commandWord 2 0

/-- Settles O1: the fields of `encode i` are the opcode and the operand of `i`. -/
theorem decodeOfEncodeIsTheCommand : Obligations.DecodeOfEncodeIsTheCommand := fun i _ => decode_encode i

theorem eq_commandWord_iff {w : CmdWord} {op : BitVec 2} : w = commandWord op (argField w) ↔ opField w = op := by
  constructor
  · intro h
    rw [h, opField_commandWord]
  · rintro rfl
    exact (commandWord_fields w).symm

/-- What a word is, by what it decodes to (rules R50, R53). -/
inductive DecodeCase : CmdWord → Except Reserved Instr → Prop where
  | command (i : Instr) : DecodeCase (encode i) (.ok i)
  | estOperand (a : Arg) (ha : a ≠ 0) : DecodeCase (commandWord 2 a) (.error (.estOperand a))
  | opcodeThree (a : Arg) : DecodeCase (commandWord 3 a) (.error (.opcodeThree a))

theorem opcode_cases : ∀ op : BitVec 2, op = 0 ∨ op = 1 ∨ op = 2 ∨ op = 3 := by decide

theorem decode_estOperand {a : Arg} (ha : a ≠ 0) : decode (commandWord 2 a) = .error (.estOperand a) :=
  (decode_commandWord 2 a).trans (if_neg ha)

theorem decode_opcodeThree (a : Arg) : decode (commandWord 3 a) = .error (.opcodeThree a) := decode_commandWord 3 a

theorem decode_cases (w : CmdWord) : DecodeCase w (decode w) := by
  obtain ⟨op, a, rfl⟩ : ∃ op a, w = commandWord op a := ⟨_, _, (commandWord_fields w).symm⟩
  rcases opcode_cases op with rfl | rfl | rfl | rfl
  · exact decode_encode (.init a) ▸ .command (.init a)
  · exact decode_encode (.obs a) ▸ .command (.obs a)
  · rcases eq_or_ne a 0 with rfl | ha
    · exact decode_encode .est ▸ .command .est
    · exact decode_estOperand ha ▸ .estOperand a ha
  · exact decode_opcodeThree a ▸ .opcodeThree a

theorem decode_eq_ok_iff {w : CmdWord} {i : Instr} : decode w = .ok i ↔ w = encode i := by
  constructor
  · intro h
    have hcase := decode_cases w
    rw [h] at hcase
    cases hcase
    rfl
  · rintro rfl
    exact decode_encode i

/-- Settles O2: the only case in which a word decodes to `i` is that it is `encode i`. -/
theorem encodeOfDecodeIsTheWord : Obligations.EncodeOfDecodeIsTheWord := fun _ _ h => (decode_eq_ok_iff.1 h).symm

/-! ### Reserved words (rule R50) -/

theorem exists_reserved_iff (w : CmdWord) : (∃ r, decode w = .error r) ↔ Machine.ReservedWord w := by
  rw [Machine.ReservedWord, opField_eq_extractLsb, argField_eq_extractLsb]
  have hcase := decode_cases w
  generalize decode w = d at hcase ⊢
  cases hcase with
  | command i => cases i <;> simp [encode]
  | estOperand a ha => simpa using ha
  | opcodeThree a => simp

/-- Settles O4: a word is made of its fields, and the two reserved forms decode under their own names. -/
theorem reservedWordsAreExactlyThese : Obligations.ReservedWordsAreExactlyThese := by
  intro w
  rw [opField_eq_extractLsb, argField_eq_extractLsb]
  refine ⟨exists_reserved_iff w, fun hop => ?_, fun hop ha => ?_⟩
  · exact (congrArg decode (eq_commandWord_iff.2 hop)).trans (decode_opcodeThree _)
  · exact (congrArg decode (eq_commandWord_iff.2 hop)).trans (decode_estOperand ha)

/-! ### Mask and match (rule R53) -/

/-- The mask of `INIT` and `OBS` keeps the opcode alone. -/
theorem opcodeMask_match_iff (w : CmdWord) (op : BitVec 2) :
    w &&& 0x30000000000000000#66 = commandWord op 0 ↔ w = commandWord op (argField w) := by
  have hmask : w &&& 0x30000000000000000#66 = commandWord (opField w) 0 := by
    rw [← Laws.RowMatch.and_high_mask _ (argField w), commandWord_fields]
  rw [hmask, eq_commandWord_iff]
  exact ⟨fun h => by simpa using congrArg opField h, fun h => by rw [h]⟩

/-- The mask of `EST` keeps the whole word. -/
theorem wordMask_match_iff (w v : CmdWord) : w &&& 0x3FFFFFFFFFFFFFFFF#66 = v ↔ w = v := by
  rw [show (0x3FFFFFFFFFFFFFFFF#66 : CmdWord) = BitVec.allOnes 66 from rfl, BitVec.and_allOnes]

theorem decode_init_iff_match (w : CmdWord) :
    decode w = .ok (.init (argField w)) ↔ w &&& 0x30000000000000000#66 = 0x00000000000000000#66 :=
  decode_eq_ok_iff.trans (opcodeMask_match_iff w 0).symm

theorem decode_obs_iff_match (w : CmdWord) :
    decode w = .ok (.obs (argField w)) ↔ w &&& 0x30000000000000000#66 = 0x10000000000000000#66 :=
  decode_eq_ok_iff.trans (opcodeMask_match_iff w 1).symm

theorem decode_est_iff_match (w : CmdWord) :
    decode w = .ok .est ↔ w &&& 0x3FFFFFFFFFFFFFFFF#66 = 0x20000000000000000#66 :=
  decode_eq_ok_iff.trans (wordMask_match_iff w _).symm

/-- A word is reserved exactly when it is none of the three commands with its own operand field. -/
theorem exists_reserved_iff_no_command (w : CmdWord) :
    (∃ r, decode w = .error r) ↔
      ¬ decode w = .ok (.init (argField w)) ∧ ¬ decode w = .ok (.obs (argField w)) ∧ ¬ decode w = .ok .est := by
  have hcase := decode_cases w
  generalize decode w = d at hcase ⊢
  cases hcase with
  | command i => cases i <;> simp [encode]
  | estOperand a ha => simp
  | opcodeThree a => simp

/-- Settles O3: a row matches exactly the words of its command, and a word of no command is reserved. -/
theorem decodeFollowsMaskAndMatch : Obligations.DecodeFollowsMaskAndMatch := by
  intro w
  rw [argField_eq_extractLsb, exists_reserved_iff_no_command, decode_init_iff_match, decode_obs_iff_match,
    decode_est_iff_match]
  exact ⟨.rfl, .rfl, .rfl, .rfl⟩

/-- Settles O5: each word is evaluated, bit by bit. -/
theorem specWordsDecode : Obligations.SpecWordsDecode := by
  unfold Obligations.SpecWordsDecode
  decide

namespace Machine

/-! ### One response per word (rules R48, R56) -/

/-- A word adds one response to the host's side of the run and leaves its stream and its index. -/
theorem host_runWord {w : CmdWord} {s t : State} (h : runWord w s = .next t) :
    (∃ r, t.responses = s.responses ++ [r]) ∧ t.stream = s.stream ∧ t.pos = s.pos := by
  rcases runWord_cases h with ⟨i, -, hi⟩ | ⟨r, -, rfl⟩
  · cases exec_cases hi with
    | constructed n hr ht => exact ht ▸ ⟨⟨_, rfl⟩, rfl, rfl⟩
    | outOfRange n hr ht => exact ht ▸ ⟨⟨_, rfl⟩, rfl, rfl⟩
    | observed a hv u hu ht =>
      rw [ht, (regRaise_some hu).2]
      exact ⟨⟨_, rfl⟩, rfl, rfl⟩
    | obsUnconstructed a hv ht => exact ht ▸ ⟨⟨_, rfl⟩, rfl, rfl⟩
    | estimated hv ht => exact ht ▸ ⟨⟨_, rfl⟩, rfl, rfl⟩
    | estUnconstructed hv ht => exact ht ▸ ⟨⟨_, rfl⟩, rfl, rfl⟩
  · exact ⟨⟨_, rfl⟩, rfl, rfl⟩

/-- Settles O11: every word ends in a next state, and each way to end adds one response. -/
theorem everyWordGetsOneResponse : Obligations.EveryWordGetsOneResponse := by
  intro w s
  obtain ⟨t, ht⟩ := exists_runWord w s
  obtain ⟨⟨r, hr⟩, hhost⟩ := host_runWord ht
  exact ⟨t, r, ht, hr, hhost⟩

/-! ### The assembler (rules R54, R55) -/

theorem commandWord_ofNat (o : Nat) {v : Nat} (hv : v < 2 ^ 64) :
    commandWord (BitVec.ofNat 2 o) (BitVec.ofNat 64 v) = BitVec.ofNat 66 (o * 2 ^ 64 + v) := by
  apply BitVec.eq_of_toNat_eq
  rw [commandWord, BitVec.toNat_append, BitVec.toNat_ofNat, BitVec.toNat_ofNat, BitVec.toNat_ofNat,
    Nat.mod_eq_of_lt hv, ← Nat.shiftLeft_add_eq_or_of_lt hv, Nat.shiftLeft_eq]
  omega

theorem asmWord_new (n : Int) : asmWord (.new n) = encode (.init (BitVec.ofInt 64 n)) := rfl

theorem asmWord_new_natCast (n : Nat) : asmWord (.new n) = asmWord (.init n) := by
  rw [asmWord_new, BitVec.ofInt_natCast]
  rfl

/-- Only the raw form can write a word of no command. -/
theorem exists_cmd_of_reserved {l : AsmLine} {r : Reserved} (h : decode (asmWord l) = .error r) :
    ∃ o v, l = .cmd o v := by
  cases l with
  | cmd o v => exact ⟨o, v, rfl⟩
  | init n => cases (decode_encode (.init _)).symm.trans h
  | obs v => cases (decode_encode (.obs _)).symm.trans h
  | est => cases (decode_encode .est).symm.trans h
  | observe text => cases (decode_encode (.obs _)).symm.trans h
  | new n => cases (decode_encode (.init _)).symm.trans h

/-- Settles O53: every line but the raw form writes the word of a command. -/
theorem assemblerWordsDecodeBack : Obligations.AssemblerWordsDecodeBack :=
  ⟨fun _ _ => decode_encode (.init _),
    fun n _ => ⟨asmWord_new_natCast n, asmWord_new_natCast n ▸ decode_encode (.init _)⟩,
    fun _ _ => decode_encode (.obs _),
    decode_encode .est,
    fun o _ _ hv => commandWord_ofNat o hv,
    fun _ => decode_encode (.obs _),
    fun _ _ _ h => exists_cmd_of_reserved h⟩

/-- The operand of a negative precision (rule R45). -/
theorem toNat_ofInt_of_neg {n : Int} (hlow : -(2 ^ 63) ≤ n) (hneg : n < 0) :
    (BitVec.ofInt 64 n).toNat = 2 ^ 64 - n.natAbs := by
  rw [BitVec.toNat_ofInt]
  omega

/-- Settles O54: the operand is at least `2^63`, and so above 18. -/
theorem negativePrecisionFails : Obligations.NegativePrecisionFails := by
  intro n s hlow hneg
  have harg := toNat_ofInt_of_neg hlow hneg
  have hrange : precisionInRange (BitVec.ofInt 64 n) = false := by
    rw [← Bool.not_eq_true, precisionInRange_iff]
    omega
  constructor
  · rw [argField_eq_extractLsb, asmWord_new, encode, argField_commandWord, harg]
  · rw [asmWord_new, runWord_of_decode (decode_encode _), exec_init_of_outOfRange hrange]
    rfl

end Machine

end Sys2Proof
end

section
/-! PROOFS. Construction (40_construct). -/

namespace Sys2Proof.Machine

/-! ### The range check (rule R58) -/

/-- The operands in range, as the words of the numbers `4, 5, ..., 18`. -/
theorem precisionInRange_iff_mem_range' {n : Arg} :
    precisionInRange n = true ↔ n ∈ (List.range' 4 15).map (BitVec.ofNat 64) := by
  rw [precisionInRange_iff, List.mem_map]
  constructor
  · rintro ⟨hlow, hhigh⟩
    exact ⟨n.toNat, List.mem_range'_1.2 ⟨hlow, by omega⟩, (BitVec.ofNat_toNat 64 n).trans (BitVec.setWidth_eq n)⟩
  · rintro ⟨k, hk, rfl⟩
    have hbounds := List.mem_range'_1.1 hk
    rw [BitVec.toNat_ofNat]
    omega

/-- Settles O18: the fifteen listed words are those of the numbers from 4 to 18. -/
theorem rangeCheckPassesForFifteenValues : Obligations.RangeCheckPassesForFifteenValues :=
  fun _ => precisionInRange_iff_mem_range'

theorem precisionInRange_eq_false_iff {n : Arg} : precisionInRange n = false ↔ n.toNat < 4 ∨ 18 < n.toNat := by
  rw [← Bool.not_eq_true, precisionInRange_iff]
  omega

/-- Settles O17: the check fails, and `{1, 1}` is the word of cause 1. -/
theorem initOutOfRangeChangesNothing : Obligations.InitOutOfRangeChangesNothing := fun _ s hn =>
  exec_init_of_outOfRange (precisionInRange_eq_false_iff.2 hn) s

/-! ### The new estimator (rules R57, R59) -/

theorem hasCell_construct {n : Arg} (hn : precisionInRange n = true) (s : State) (j : Nat) :
    hasCell (construct n s) j = true ↔ j < 2 ^ n.toNat := by
  rw [hasCell_iff, construct_p, cellCount, setWidth_toNat_of_inRange hn]
  exact and_iff_right (construct_valid n s)

/-- The array has exactly `2^n` cells, all 0, whatever array it replaces. -/
theorem regRead_construct {n : Arg} (hn : precisionInRange n = true) (s : State) (j : Nat) :
    regRead (construct n s) j = if j < 2 ^ n.toNat then some 0 else none := by
  split
  · next hj => rw [regRead_of_hasCell ((hasCell_construct hn s j).2 hj), construct_regs, cellAt_nil]
  · next hj => exact regRead_eq_none (by rwa [← Bool.not_eq_true, hasCell_construct hn])

/-- Settles O16: the new estimator with the response 0 added, a response that moves no cell. -/
theorem initConstructs : Obligations.InitConstructs := by
  intro n s hlow hhigh
  have hn := precisionInRange_iff.2 ⟨hlow, hhigh⟩
  refine ⟨_, exec_init_of_inRange hn s, ?_, regRead_construct hn s⟩
  rw [BitVec.ofNat_toNat]
  rfl

end Sys2Proof.Machine
end

section
/-! PROOFS. Observation (41_observe). -/

namespace Sys2Proof.Machine

/-! ### `rho` of a residual (rules R65, R67) -/

@[simp] theorem rhoOf_zero (W : Nat) : rhoOf W 0 = W := by simp [rhoOf]

theorem rhoOf_of_ne_zero {W w : Nat} (hw : w ≠ 0) (hlt : w < 2 ^ W) : rhoOf W w = W - Nat.log2 w := by
  have hsum := clzField_add_log2 hw hlt
  unfold rhoOf
  omega

/-- Settles O23: the bit `W - rho` of a residual that is not 0 is its most-significant 1 bit, bit `floorLog2(w)`. -/
theorem rhoFollowsTheFormula : Obligations.RhoFollowsTheFormula := by
  intro W w _ hlt
  refine ⟨?_, rfl, fun hw => ?_⟩
  · split
    · next hw => rw [hw, rhoOf_zero]
    · next hw => exact rhoOf_of_ne_zero hw hlt
  · have hlog : Nat.log2 w < W := (Nat.log2_lt hw).2 hlt
    have hbit : W - rhoOf W w = Nat.log2 w := by
      rw [rhoOf_of_ne_zero hw hlt]
      omega
    rw [hbit]
    exact ⟨Nat.testBit_log2 hw, fun i hi => Nat.testBit_lt_two_pow ((Nat.log2_lt hw).1 hi)⟩

/-- The band of the residuals whose `rho` is `k`. -/
theorem rhoOf_of_band {W k w : Nat} (hk : 1 ≤ k) (hkW : k ≤ W) (hlow : 2 ^ (W - k) ≤ w)
    (hhigh : w < 2 ^ (W - k + 1)) : rhoOf W w = k := by
  have hw : w ≠ 0 := (lt_of_lt_of_le (Nat.two_pow_pos _) hlow).ne'
  have hlt : w < 2 ^ W := hhigh.trans_le (Nat.pow_le_pow_right two_pos (by omega))
  have hlog : Nat.log2 w = W - k := (Nat.log2_eq_iff hw).2 ⟨hlow, hhigh⟩
  rw [rhoOf_of_ne_zero hw hlt]
  omega

theorem rhoOf_eq_iff_band {W k w : Nat} (hk : 1 ≤ k) (hkW : k < W) (hlt : w < 2 ^ W) :
    rhoOf W w = k ↔ 2 ^ (W - k) ≤ w ∧ w < 2 ^ (W - k + 1) := by
  refine ⟨fun h => ?_, fun ⟨hlow, hhigh⟩ => rhoOf_of_band hk hkW.le hlow hhigh⟩
  have hw : w ≠ 0 := by
    rintro rfl
    rw [rhoOf_zero] at h
    omega
  rw [rhoOf_of_ne_zero hw hlt] at h
  exact (Nat.log2_eq_iff hw).1 (by omega)

/-- The residuals 0 and 1 share the greatest `rho` (90_conflicts C1). -/
theorem rhoOf_eq_width_iff {W w : Nat} (hW : 1 ≤ W) (hlt : w < 2 ^ W) : rhoOf W w = W ↔ w < 2 := by
  rcases eq_or_ne w 0 with rfl | hw
  · simp
  · rw [rhoOf_of_ne_zero hw hlt, ← pow_one 2, ← Nat.log2_lt hw]
    omega

/-! ### How many residuals have each `rho` (rule R67) -/

/-- Where `f` picks out the numbers from `a` up to `b`, below `n`, there are `b - a` of them. -/
theorem countBelow_of_band {f : Nat → Bool} {a b n : Nat} (hb : b ≤ n)
    (hf : ∀ i, i < n → (f i = true ↔ a ≤ i ∧ i < b)) : countBelow f n = b - a := by
  have hcount : ∀ m, m ≤ n → countBelow f m = min b m - a := by
    intro m
    induction m with
    | zero => intro _; simp [countBelow]
    | succ m ih =>
      intro hm
      rw [countBelow, ih (by omega)]
      simp only [hf m hm]
      split <;> omega
  rw [hcount n le_rfl, min_eq_left hb]

theorem countBelow_rhoOf {W k : Nat} (hk : 1 ≤ k) (hkW : k < W) :
    countBelow (fun w => rhoOf W w == k) (2 ^ W) = 2 ^ (W - k) := by
  rw [countBelow_of_band (a := 2 ^ (W - k)) (b := 2 ^ (W - k + 1)) (Nat.pow_le_pow_right two_pos (by omega))
    fun w hw => by rw [beq_iff_eq, rhoOf_eq_iff_band hk hkW hw], pow_succ]
  omega

theorem countBelow_rhoOf_width {W : Nat} (hW : 1 ≤ W) : countBelow (fun w => rhoOf W w == W) (2 ^ W) = 2 :=
  countBelow_of_band (a := 0) (Nat.le_self_pow (by omega) 2) fun w hw => by
    rw [beq_iff_eq, rhoOf_eq_width_iff hW hw, and_iff_right (Nat.zero_le w)]

/-- Settles O25: each `rho` below `W` has one band of residuals, `W` has the residuals 0 and 1, and the width of the
residual is at most 60. -/
theorem rhoRangeAndTable : Obligations.RhoRangeAndTable := by
  refine ⟨fun W hW => ⟨fun w _ => ⟨rhoOf_pos hW w, rhoOf_le W w⟩, fun k w => rhoOf_of_band, rhoOf_zero W,
    fun k => countBelow_rhoOf, countBelow_rhoOf_width hW⟩, fun p h hp => ?_, rfl, rfl⟩
  calc hashRho p h
    _ ≤ 64 - p.toNat := hashRho_le p h
    _ ≤ 60 := by omega

/-! ### The parts of the hash value (rules R62, R63, R66) -/

theorem hashResidual_eq_div (p : BitVec 5) (h : Arg) : hashResidual p h = h.toNat / 2 ^ p.toNat :=
  Nat.shiftRight_eq_div_pow ..

theorem hashResidual_lt (p : BitVec 5) (h : Arg) : hashResidual p h < 2 ^ (64 - p.toNat) := by
  have hshift := BitVec.toNat_ushiftRight_lt h p.toNat (by omega)
  rwa [BitVec.toNat_ushiftRight] at hshift

theorem toNat_lowMask (p : BitVec 5) : (BitVec.ofNat 64 (2 ^ p.toNat - 1)).toNat = 2 ^ p.toNat - 1 := by
  have hpow : 2 ^ p.toNat < 2 ^ 64 := Nat.pow_lt_pow_right one_lt_two (by omega)
  rw [BitVec.toNat_ofNat, Nat.mod_eq_of_lt (by omega)]

theorem hashIndex_eq_and (p : BitVec 5) (h : Arg) :
    hashIndex p h = (h &&& BitVec.ofNat 64 (2 ^ p.toNat - 1)).toNat := by
  rw [BitVec.toNat_and, toNat_lowMask, Nat.and_two_pow_sub_one_eq_mod]
  rfl

/-- Settles O21: the index and the residual are the remainder and the quotient of `h` by `2^P`. -/
theorem hashSplitsIntoIndexAndResidual : Obligations.HashSplitsIntoIndexAndResidual := by
  intro p h
  refine ⟨hashIndex_eq_and p h, Nat.le_pred_of_lt (hashIndex_lt p h), hashResidual_lt p h, fun i => ?_, ?_⟩
  · rw [hashResidual, Nat.testBit_shiftRight, BitVec.testBit_toNat]
  · rw [hashResidual_eq_div]
    exact (Nat.div_add_mod' _ _).symm

/-- The hash value with its low `P` bits cleared is the residual, moved up by `P` bits. -/
theorem toNat_clearedLow (p : BitVec 5) (h : Arg) :
    (h &&& ~~~(BitVec.ofNat 64 (2 ^ p.toNat - 1))).toNat = hashResidual p h * 2 ^ p.toNat := by
  refine Nat.eq_of_testBit_eq fun i => ?_
  rw [BitVec.testBit_toNat, BitVec.getLsbD_and, BitVec.getLsbD_not, BitVec.getLsbD_ofNat,
    Nat.testBit_two_pow_sub_one, Nat.testBit_mul_two_pow, hashResidual, Nat.testBit_shiftRight,
    BitVec.testBit_toNat]
  by_cases hi : p.toNat ≤ i
  · rw [Nat.add_sub_cancel' hi]
    cases hbit : h.getLsbD i with
    | false => rw [Bool.false_and, Bool.and_false]
    | true => simp [BitVec.lt_of_getLsbD hbit, hi]
  · have hlow : i < 64 ∧ i < p.toNat := by omega
    simp [hi, hlow]

theorem log2_mul_two_pow {w : Nat} (hw : w ≠ 0) (k : Nat) : Nat.log2 (w * 2 ^ k) = Nat.log2 w + k := by
  induction k with
  | zero => rw [pow_zero, mul_one, add_zero]
  | succ k ih =>
    have hpos : w * 2 ^ k ≠ 0 := mul_ne_zero hw (Nat.two_pow_pos k).ne'
    rw [pow_succ', mul_left_comm, Nat.log2_two_mul hpos, ih, add_assoc]

/-- `P` cleared bits below a residual that is not 0 do not change its leading zeros. -/
theorem clzField_mul_two_pow {W w : Nat} (hw : w ≠ 0) (hlt : w < 2 ^ W) (k : Nat) :
    clzField (W + k) (w * 2 ^ k) = clzField W w := by
  have hpos : w * 2 ^ k ≠ 0 := mul_ne_zero hw (Nat.two_pow_pos k).ne'
  have hsum := clzField_add_log2 hw hlt
  rw [clzField_of_ne_zero _ hpos, log2_mul_two_pow hw]
  omega

/-- Rule R66 for every value of `P`: `rho` from the hash value with its low bits cleared. -/
theorem hashRho_eq_clearedLow (p : BitVec 5) (h : Arg) :
    hashRho p h =
      min (clzField 64 (h &&& ~~~(BitVec.ofNat 64 (2 ^ p.toNat - 1))).toNat + 1) (64 - p.toNat) := by
  rw [toNat_clearedLow]
  change min (clzField (64 - p.toNat) (hashResidual p h) + 1) (64 - p.toNat) = _
  rcases eq_or_ne (hashResidual p h) 0 with hw | hw
  · rw [hw, zero_mul, clzField_zero, clzField_zero]
    omega
  · have hwidth : 64 - p.toNat + p.toNat = 64 := by omega
    have hclz := clzField_mul_two_pow hw (hashResidual_lt p h) p.toNat
    rw [hwidth] at hclz
    rw [hclz]

/-- Settles O24: clearing the low bits keeps the leading zeros, and shifting them out puts `P` zeros in front. -/
theorem rhoWithoutShifter : Obligations.RhoWithoutShifter := by
  refine fun p h _ _ => ⟨hashRho_eq_clearedLow p h, fun hw => ?_⟩
  have hsum := clzField_add_log2 hw (hashResidual_lt p h)
  rw [BitVec.toNat_ushiftRight]
  change clzField 64 (hashResidual p h) = _
  rw [clzField_of_ne_zero 64 hw]
  omega

/-! ### One observation (rules R61, R68, R69) -/

theorem hashRho_eq_formula (p : BitVec 5) (h : Arg) :
    hashRho p h =
      if h.toNat / 2 ^ p.toNat = 0 then 64 - p.toNat else 64 - p.toNat - Nat.log2 (h.toNat / 2 ^ p.toNat) := by
  rw [← hashResidual_eq_div]
  exact (rhoFollowsTheFormula _ _ (residualWidth_pos p) (hashResidual_lt p h)).1

/-- The array after one `OBS` at the precision `p`. -/
def observeCells (p : BitVec 5) (cs : Cells) (h : Arg) : Cells := raisedCells cs (hashIndex p h) (hashRho p h)

theorem wf_observeCells (p : BitVec 5) {cs : Cells} (hw : Memory.wf cs = true) (h : Arg) :
    Memory.wf (observeCells p cs h) = true :=
  (raised_spec hw _ (hashRho_lt p h)).1

theorem cellAt_observeCells_same (p : BitVec 5) {cs : Cells} (hw : Memory.wf cs = true) (h : Arg) :
    (cellAt (observeCells p cs h) (hashIndex p h)).toNat = max (cellAt cs (hashIndex p h)).toNat (hashRho p h) :=
  (raised_spec hw _ (hashRho_lt p h)).2.1

theorem cellAt_observeCells_other (p : BitVec 5) {cs : Cells} (hw : Memory.wf cs = true) (h : Arg) {k : Nat}
    (hk : k ≠ hashIndex p h) : cellAt (observeCells p cs h) k = cellAt cs k :=
  (raised_spec hw _ (hashRho_lt p h)).2.2 k hk

theorem raisedCells_of_le {cs : Cells} {j rho : Nat} (h : rho ≤ (cellAt cs j).toNat) : raisedCells cs j rho = cs :=
  if_neg h.not_gt

/-- Settles O19: the selected cell exists, and the raise is the one of `raised_spec`. -/
theorem obsRaisesTheSelectedCell : Obligations.ObsRaisesTheSelectedCell := by
  intro h s hv hw
  dsimp only
  rw [← hashRho_eq_formula]
  have hcell := hasCell_hashIndex hv h
  refine ⟨_, _, _, exec_obs_of_valid hv h, rfl, regRead_of_hasCell hcell,
    regRead_of_hasCell (s := pushResponse (okWord 0) (observed h s)) hcell,
    cellAt_observeCells_same s.p hw h, fun hle => raisedCells_of_le hle, fun k hk => ?_⟩
  change regRead (setCells (observeCells s.p s.regs h) s) k = _
  rw [regRead_setCells, cellAt_observeCells_other s.p hw h hk, regRead]

theorem observeCells_twice (p : BitVec 5) {cs : Cells} (hw : Memory.wf cs = true) (h : Arg) :
    observeCells p (observeCells p cs h) h = observeCells p cs h :=
  raisedCells_of_le ((le_max_right _ _).trans_eq (cellAt_observeCells_same p hw h).symm)

/-- A response given in between does not matter. -/
theorem observed_observed {s : State} (hw : Memory.wf s.regs = true) (h : Arg) (r : RspWord) :
    observed h (pushResponse r (observed h s)) = pushResponse r (observed h s) :=
  congrArg (setCells · (pushResponse r (observed h s))) (observeCells_twice s.p hw h)

/-- Settles O26: the raised cell is not below `rho`, so the second `OBS` writes nothing. -/
theorem obsTwiceIsObsOnce : Obligations.ObsTwiceIsObsOnce := by
  intro h s hv hw
  refine ⟨_, exec_obs_of_valid hv h, ?_⟩
  rw [exec_obs_of_valid (s := pushResponse (okWord 0) (observed h s)) hv, observed_observed hw]
  rfl

/-! ### Lists of observations (rule R69 item 3) -/

/-- A list of `OBS` on a constructed state ends, keeps `VALID` and `P`, and folds its hash values into the array. -/
theorem exists_observeAll (hs : List Arg) {s : State} (hv : s.valid = true) :
    ∃ t, observeAll hs s = some t ∧ t.valid = true ∧ t.p = s.p ∧ t.regs = hs.foldl (observeCells s.p) s.regs := by
  induction hs generalizing s with
  | nil => exact ⟨s, rfl, hv, rfl, rfl⟩
  | cons h hs ih =>
    obtain ⟨t, ht, hrest⟩ := ih (s := pushResponse (okWord 0) (observed h s)) hv
    have hobs : execObs h s = .next (pushResponse (okWord 0) (observed h s)) := exec_obs_of_valid hv h
    refine ⟨t, ?_, hrest⟩
    rw [observeAll, hobs]
    exact ht

theorem wf_foldl_observeCells (p : BitVec 5) (hs : List Arg) {cs : Cells} (hw : Memory.wf cs = true) :
    Memory.wf (hs.foldl (observeCells p) cs) = true := by
  induction hs generalizing cs with
  | nil => exact hw
  | cons h hs ih => exact ih (wf_observeCells p hw h)

/-- What one hash value asks of the cell `j`: its `rho` if it selects the cell, otherwise 0. -/
def rhoAt (p : BitVec 5) (j : Nat) (h : Arg) : Nat := if hashIndex p h = j then hashRho p h else 0

theorem greatestRho_cons (p : BitVec 5) (j : Nat) (h : Arg) (hs : List Arg) :
    greatestRho p j (h :: hs) = max (rhoAt p j h) (greatestRho p j hs) := rfl

theorem cellAt_observeCells (p : BitVec 5) {cs : Cells} (hw : Memory.wf cs = true) (h : Arg) (j : Nat) :
    (cellAt (observeCells p cs h) j).toNat = max (cellAt cs j).toNat (rhoAt p j h) := by
  unfold rhoAt
  split
  · next hj => rw [← hj, cellAt_observeCells_same p hw]
  · next hj => rw [cellAt_observeCells_other p hw h (Ne.symm hj), Nat.max_zero]

theorem cellAt_foldl_observeCells (p : BitVec 5) (hs : List Arg) {cs : Cells} (hw : Memory.wf cs = true) (j : Nat) :
    (cellAt (hs.foldl (observeCells p) cs) j).toNat = max (cellAt cs j).toNat (greatestRho p j hs) := by
  induction hs generalizing cs with
  | nil => exact (Nat.max_zero _).symm
  | cons h hs ih =>
    rw [List.foldl_cons, ih (wf_observeCells p hw h), cellAt_observeCells p hw, greatestRho_cons, max_assoc]

/-- Settles O27: the observations are folded into an array of zeros. -/
theorem cellsHoldTheGreatestRho : Obligations.CellsHoldTheGreatestRho := by
  intro n s hs hlow hhigh
  have hn := precisionInRange_iff.2 ⟨hlow, hhigh⟩
  obtain ⟨u, hu, hvalid, hp, hregs⟩ := exists_observeAll hs (s := pushResponse (okWord 0) (construct n s)) rfl
  have hpn : u.p.toNat = n.toNat := (congrArg BitVec.toNat hp).trans (setWidth_toNat_of_inRange hn)
  refine ⟨_, u, exec_init_of_inRange hn s, hu, hvalid, hpn, fun j hj => ?_⟩
  have hcell : hasCell u j = true := hasCell_iff.2 ⟨hvalid, by rwa [cellCount, hpn]⟩
  refine ⟨_, regRead_of_hasCell hcell, ?_⟩
  rw [hregs, pushResponse_regs, construct_regs, cellAt_foldl_observeCells _ _ wf_nil, hp]
  exact Nat.zero_max _

theorem greatestRho_le_iff {p : BitVec 5} {j n : Nat} {hs : List Arg} :
    greatestRho p j hs ≤ n ↔ ∀ h ∈ hs, rhoAt p j h ≤ n := by
  induction hs with
  | nil => simp [greatestRho]
  | cons h hs ih => rw [greatestRho_cons, max_le_iff, ih, List.forall_mem_cons]

theorem greatestRho_mono (p : BitVec 5) (j : Nat) {hs hs' : List Arg} (hsub : ∀ h ∈ hs, h ∈ hs') :
    greatestRho p j hs ≤ greatestRho p j hs' :=
  greatestRho_le_iff.2 fun h hh => greatestRho_le_iff.1 le_rfl h (hsub h hh)

/-- Settles O28: the cells are the same greatest values, and a canonical array is known by its cells. -/
theorem observationOrderAndRepetitionDoNotMatter : Obligations.ObservationOrderAndRepetitionDoNotMatter := by
  intro s hs hs' hv hw hsame
  obtain ⟨t, ht, hvalid, hp, hregs⟩ := exists_observeAll hs hv
  obtain ⟨t', ht', hvalid', hp', hregs'⟩ := exists_observeAll hs' hv
  refine ⟨t, t', ht, ht', hvalid.trans hvalid'.symm, hp.trans hp'.symm, ?_⟩
  rw [hregs, hregs']
  refine cells_ext (wf_foldl_observeCells _ _ hw) (wf_foldl_observeCells _ _ hw) fun j => BitVec.eq_of_toNat_eq ?_
  have hgreatest : greatestRho s.p j hs = greatestRho s.p j hs' :=
    (greatestRho_mono _ _ fun h => (hsame h).1).antisymm (greatestRho_mono _ _ fun h => (hsame h).2)
  rw [cellAt_foldl_observeCells _ _ hw, cellAt_foldl_observeCells _ _ hw, hgreatest]

/-! ### The pipeline (rules R70, R112) -/

/-- The array that stage S3 leaves at the end of the cycle. -/
def Pipe.written (q : Pipe) : Cells := (pipeTick q none).cells

/-- The array once the pipeline has been emptied, by two bubbles. -/
def Pipe.emptied (q : Pipe) : Cells := (pipeTick q none).written

/-- The byte that waits for stage S3 is the one in the array, whatever has been written since stage S2 took it. -/
structure Pipe.Coherent (q : Pipe) : Prop where
  wf : Memory.wf q.cells = true
  fresh : ∀ c, q.count = some c → c.cell = cellAt q.cells c.index

theorem stageUpdate_eq_raisedCells {cs : Cells} {c : CountOut} (h : c.cell = cellAt cs c.index) :
    stageUpdate cs c = raisedCells cs c.index c.rho := by
  rw [stageUpdate, h, raisedCells]

theorem wf_stageUpdate {cs : Cells} (hw : Memory.wf cs = true) (c : CountOut) :
    Memory.wf (stageUpdate cs c) = true := by
  unfold stageUpdate
  split
  · exact wf_cellPut hw _ _
  · exact hw

theorem cellAt_stageUpdate_same {cs : Cells} (hw : Memory.wf cs = true) {c : CountOut}
    (h : c.cell = cellAt cs c.index) : cellAt (stageUpdate cs c) c.index = updatedByte c := by
  unfold stageUpdate updatedByte
  split
  · exact cellAt_cellPut_same hw _ _
  · exact h.symm

theorem cellAt_stageUpdate_other (cs : Cells) (c : CountOut) {j : Nat} (hj : j ≠ c.index) :
    cellAt (stageUpdate cs c) j = cellAt cs j := by
  unfold stageUpdate
  split
  · exact cellAt_cellPut_other _ _ hj
  · rfl

theorem Pipe.written_of_count_none {q : Pipe} (h : q.count = none) : q.written = q.cells := by
  simp [Pipe.written, pipeTick, h]

theorem Pipe.written_of_count_some {q : Pipe} {c : CountOut} (h : q.count = some c) :
    q.written = stageUpdate q.cells c := by
  simp [Pipe.written, pipeTick, h]

theorem Pipe.Coherent.wf_written {q : Pipe} (hq : q.Coherent) : Memory.wf q.written = true := by
  cases hc : q.count with
  | none => rw [q.written_of_count_none hc]; exact hq.wf
  | some c => rw [q.written_of_count_some hc]; exact wf_stageUpdate hq.wf c

/-- Forwarding hands stage S2 the byte that the array holds after the cycle. -/
theorem Pipe.Coherent.forwardedCell_eq {q : Pipe} (hq : q.Coherent) (j : Nat) :
    forwardedCell q.cells q.count j = cellAt q.written j := by
  cases hc : q.count with
  | none => rw [q.written_of_count_none hc, forwardedCell]
  | some c =>
    rw [q.written_of_count_some hc, forwardedCell]
    split
    · next hj => rw [← hj, cellAt_stageUpdate_same hq.wf (hq.fresh c hc)]
    · next hj => exact (cellAt_stageUpdate_other _ _ (Ne.symm hj)).symm

theorem Pipe.Coherent.tick {q : Pipe} (hq : q.Coherent) (input : Option Arg) : (pipeTick q input).Coherent := by
  refine ⟨hq.wf_written, fun c hc => ?_⟩
  obtain ⟨a, -, rfl⟩ := Option.map_eq_some_iff.1 hc
  exact hq.forwardedCell_eq a.index

/-- Stage S2 computes the `rho` of the hash value that stage S1 has split. -/
theorem stageCount_rho (p : BitVec 5) (cs : Cells) (ahead : Option CountOut) (h : Arg) :
    (stageCount p cs ahead (stageSplit p h)).rho = hashRho p h :=
  (hashRho_eq_clearedLow p h).symm

/-- A bubble leaves what the pipeline still has to do. -/
theorem Pipe.emptied_pipeTick_none (q : Pipe) : (pipeTick q none).emptied = q.emptied := rfl

/-- A hash value that enters is observed after those on their way. -/
theorem Pipe.Coherent.emptied_pipeTick_some {q : Pipe} (hq : q.Coherent) (h : Arg) :
    (pipeTick q (some h)).emptied = observeCells q.p q.emptied h := by
  have hr := hq.tick (some h)
  have hs := hr.tick none
  have hcount : (pipeTick (pipeTick q (some h)) none).count =
      some (stageCount q.p q.written (pipeTick q (some h)).count (stageSplit q.p h)) := rfl
  rw [Pipe.emptied, Pipe.written_of_count_some hcount, stageUpdate_eq_raisedCells (hs.fresh _ hcount), stageCount_rho]
  rfl

theorem emptied_foldl_pipeTick (inputs : List (Option Arg)) {q : Pipe} (hq : q.Coherent) :
    (inputs.foldl pipeTick q).emptied = (inputs.filterMap id).foldl (observeCells q.p) q.emptied := by
  induction inputs generalizing q with
  | nil => rfl
  | cons input inputs ih =>
    rw [List.foldl_cons, ih (hq.tick input)]
    cases input with
    | none => rw [Pipe.emptied_pipeTick_none]; rfl
    | some h => rw [hq.emptied_pipeTick_some]; rfl

theorem pipeRun_eq_emptied (p : BitVec 5) (cs : Cells) (inputs : List (Option Arg)) :
    pipeRun p cs inputs = (inputs.foldl pipeTick ⟨p, cs, none, none⟩).emptied := by
  rw [pipeRun, List.foldl_append]
  rfl

/-- Settles O30: what the pipeline leaves once emptied follows, input by input, the sequential array. -/
theorem pipelineLeavesTheSequentialArray : Obligations.PipelineLeavesTheSequentialArray := by
  intro s inputs hv hw _ _
  obtain ⟨t, ht, -, -, hregs⟩ := exists_observeAll (inputs.filterMap id) hv
  have hstart : Pipe.Coherent ⟨s.p, s.regs, none, none⟩ := ⟨hw, fun _ hc => by cases hc⟩
  refine ⟨t, ht, ?_⟩
  rw [pipeRun_eq_emptied, emptied_foldl_pipeTick inputs hstart, hregs]
  rfl

end Sys2Proof.Machine
end

section
/-! PROOFS. Rounding as a relation between a real number and a word (00_scope rule R11). -/

namespace Sys2Proof.Machine

/-! ### The values of words -/

theorem f64Proper_of_posNormal {a : F64} (h : f64PosNormal a = true) : f64Proper a = true :=
  f64Proper_iff.2 (f64PosNormal_iff.1 h).2

theorem value_le_iff_of_proper {a b : F64} (ha : f64Proper a = true) (hb : f64Proper b = true) :
    f64Value a ≤ f64Value b ↔ a.toNat ≤ b.toNat := by
  have ha' := f64Proper_iff.1 ha
  have hb' := f64Proper_iff.1 hb
  exact f64Value_le_iff (by omega) (by omega)

theorem value_lt_iff_of_proper {a b : F64} (ha : f64Proper a = true) (hb : f64Proper b = true) :
    f64Value a < f64Value b ↔ a.toNat < b.toNat := by
  rw [← not_le, value_le_iff_of_proper hb ha, not_le]

@[simp] theorem f64Value_zero : f64Value 0 = 0 := by
  have hs : f64Significand 0 = 0 := by decide
  rw [f64Value, hs, Nat.cast_zero, zero_mul]

theorem f64Value_of_fields {a : F64} {sig k : Nat} (hs : f64Significand a = sig) (hp : f64Power a = -k) :
    f64Value a = sig / 2 ^ k := by
  rw [f64Value, hs, hp, zpow_neg, zpow_natCast, div_eq_mul_inv]

theorem toNat_add_one {a : F64} (h : a.toNat < 2 ^ 63) : (a + 1).toNat = a.toNat + 1 := by
  rw [BitVec.toNat_add, show (1 : F64).toNat = 1 from rfl]
  omega

/-- The word with the exponent field raised by `k`. -/
def raiseExponent (k : Nat) (a : F64) : F64 := a + BitVec.ofNat 64 (k * 2 ^ 52)

theorem toNat_raiseExponent {k : Nat} {a : F64} (h : a.toNat + k * 2 ^ 52 < 2 ^ 64) :
    (raiseExponent k a).toNat = a.toNat + k * 2 ^ 52 := by
  rw [raiseExponent, BitVec.toNat_add, BitVec.toNat_ofNat, Nat.add_mod_mod, Nat.mod_eq_of_lt h]

theorem raiseExponent_raiseExponent (j k : Nat) (a : F64) :
    raiseExponent j (raiseExponent k a) = raiseExponent (k + j) a := by
  rw [raiseExponent, raiseExponent, raiseExponent, BitVec.add_assoc, ← BitVec.ofNat_add, add_mul]

theorem unitsOf_add_exponent {w : Nat} (hw : 2 ^ 52 ≤ w) (k : Nat) : unitsOf (w + k * 2 ^ 52) = unitsOf w * 2 ^ k := by
  have hexp : (w + k * 2 ^ 52) / 2 ^ 52 = w / 2 ^ 52 + k := by omega
  have hfrac : (w + k * 2 ^ 52) % 2 ^ 52 = w % 2 ^ 52 := by omega
  rw [unitsOf, unitsOf, hexp, hfrac, if_neg (by omega), if_neg (by omega), mul_assoc, ← pow_add]
  congr 2
  omega

section
variable {k : Nat} {a : F64} (ha : f64PosNormal a = true) (hk : a.toNat + k * 2 ^ 52 < 0x7FF0000000000000)
include ha hk

theorem f64PosNormal_raiseExponent : f64PosNormal (raiseExponent k a) = true := by
  have ha' := f64PosNormal_iff.1 ha
  rw [f64PosNormal_iff, toNat_raiseExponent (by omega)]
  omega

/-- Raising the exponent field of a normal number by `k` multiplies its value by `2^k`. -/
theorem f64Value_raiseExponent : f64Value (raiseExponent k a) = f64Value a * 2 ^ k := by
  have hn := toNat_raiseExponent (k := k) (a := a) (by omega)
  rw [f64Value_eq_units (by omega), hn, unitsOf_add_exponent (f64PosNormal_iff.1 ha).1, f64Value_eq_units (by omega),
    Nat.cast_mul, Nat.cast_pow, Nat.cast_two, mul_right_comm]

end

/-! ### The normal range -/

theorem normalRange_of_bounds {x : ℚ} (hlow : 1 / 2 ^ 100 ≤ x) (hhigh : x ≤ 2 ^ 100) : NormalRange x := by
  constructor
  · calc (2 : ℚ) ^ (-1022 : ℤ) ≤ 2 ^ (-100 : ℤ) := zpow_le_zpow_right₀ one_le_two (by norm_num)
      _ = 1 / 2 ^ 100 := by rw [zpow_neg, one_div]; rfl
      _ ≤ x := hlow
  · calc x ≤ 2 ^ 100 := hhigh
      _ = 1 * (2 : ℚ) ^ (100 : ℤ) := by rw [one_mul]; rfl
      _ ≤ (2 ^ 53 - 1) * 2 ^ (971 : ℤ) :=
        mul_le_mul (by norm_num) (zpow_le_zpow_right₀ one_le_two (by norm_num)) (by positivity) (by norm_num)

/-- The values of the normal words are in the normal range. -/
theorem normalRange_value {a : F64} (ha : f64PosNormal a = true) : NormalRange (f64Value a) := by
  obtain ⟨hlow, hhigh⟩ := f64PosNormal_iff.1 ha
  have hleast : 2 ^ 52 ≤ unitsOf a.toNat := by
    rw [← mul_one (2 ^ 52), ← pow_zero 2, ← unitsOf_significand 0 le_rfl (by decide)]
    exact unitsOf_strictMono.monotone hlow
  have hgreatest : unitsOf a.toNat ≤ (2 ^ 53 - 1) * 2 ^ 2045 := by
    rw [← unitsOf_significand 2045 (by decide) (Nat.sub_le _ _)]
    exact unitsOf_strictMono.monotone (by omega)
  rw [f64Value_eq_units (by omega)]
  constructor
  · calc (2 : ℚ) ^ (-1022 : ℤ) = (2 ^ 52 : Nat) * 2 ^ (-1074 : ℤ) := by
          rw [Nat.cast_pow, Nat.cast_two, ← zpow_natCast, ← zpow_add₀ two_ne_zero]; rfl
      _ ≤ unitsOf a.toNat * 2 ^ (-1074 : ℤ) := by gcongr
  · calc (unitsOf a.toNat : ℚ) * 2 ^ (-1074 : ℤ) ≤ ((2 ^ 53 - 1) * 2 ^ 2045 : Nat) * 2 ^ (-1074 : ℤ) := by gcongr
      _ = (2 ^ 53 - 1) * 2 ^ (971 : ℤ) := by
          rw [Nat.cast_mul, Nat.cast_pow 2 2045, Nat.cast_two, mul_assoc, ← zpow_natCast, ← zpow_add₀ two_ne_zero]
          norm_num

/-! ### The nearest proper word -/

theorem midpoint_le_of_nearer {a b x : ℝ} (hab : a < b) (h : |b - x| ≤ |a - x|) : a + b ≤ 2 * x := by
  have := sq_le_sq.2 h
  nlinarith

theorem le_midpoint_of_nearer {a b x : ℝ} (hab : a < b) (h : |a - x| ≤ |b - x|) : 2 * x ≤ a + b := by
  have := sq_le_sq.2 h
  nlinarith

section
variable {x : ℝ} {L v : F64} (h : RoundsTo x L) (hv : f64Proper v = true)
include h hv

theorem RoundsTo.midpoint_le (hlt : f64Value v < f64Value L) : (f64Value v : ℝ) + f64Value L ≤ 2 * x :=
  midpoint_le_of_nearer (Rat.cast_lt.2 hlt) (h.2 v hv).1

theorem RoundsTo.le_midpoint (hlt : f64Value L < f64Value v) : 2 * x ≤ f64Value L + (f64Value v : ℝ) :=
  le_midpoint_of_nearer (Rat.cast_lt.2 hlt) (h.2 v hv).1

/-- Rounding does not cross a word from above. -/
theorem RoundsTo.value_ge (hx : (f64Value v : ℝ) ≤ x) : f64Value v ≤ f64Value L := by
  by_contra hlt
  have hmid := h.le_midpoint hv (not_le.1 hlt)
  have hlt' := (Rat.cast_lt (K := ℝ)).2 (not_le.1 hlt)
  linarith

/-- Rounding does not cross a word from below. -/
theorem RoundsTo.value_le (hx : x ≤ (f64Value v : ℝ)) : f64Value L ≤ f64Value v := by
  by_contra hlt
  have hmid := h.midpoint_le hv (not_le.1 hlt)
  have hlt' := (Rat.cast_lt (K := ℝ)).2 (not_le.1 hlt)
  linarith

/-- The value of a word rounds to that word. -/
theorem RoundsTo.eq_of_value (hx : (f64Value v : ℝ) = x) : L = v :=
  f64Value_inj h.1 hv (le_antisymm (h.value_le hv hx.ge) (h.value_ge hv hx.le))

end

/-- Of two words at the same distance one has last bit 1, or a word between them is nearer. -/
theorem RoundsTo.not_value_lt {x : ℝ} {L L' : F64} (h : RoundsTo x L) (h' : RoundsTo x L') :
    ¬ f64Value L < f64Value L' := by
  intro hlt
  have hword := (value_lt_iff_of_proper h.1 h'.1).1 hlt
  have hne : L' ≠ L := fun he => by rw [he] at hlt; exact hlt.false
  have htie := le_antisymm (h.2 L' h'.1).1 (h'.2 L h.1).1
  have heven := (h.2 L' h'.1).2 hne htie
  have heven' := (h'.2 L h.1).2 hne.symm htie.symm
  have hL' := f64Proper_iff.1 h'.1
  have hbetween := toNat_add_one (a := L) (by omega)
  have hproper : f64Proper (L + 1) = true := f64Proper_iff.2 (by omega)
  have hlow := h.le_midpoint hproper ((value_lt_iff_of_proper h.1 hproper).2 (by omega))
  have hhigh := h'.midpoint_le h.1 hlt
  have hstep := (Rat.cast_lt (K := ℝ)).2 ((value_lt_iff_of_proper hproper h'.1).2 (by omega))
  linarith

theorem RoundsTo.unique {x : ℝ} {L L' : F64} (h : RoundsTo x L) (h' : RoundsTo x L') : L = L' :=
  f64Value_inj h.1 h'.1 (le_antisymm (not_lt.1 (h'.not_value_lt h)) (not_lt.1 (h.not_value_lt h')))

theorem RoundsTo.mono {x y : ℝ} {L L' : F64} (h : RoundsTo x L) (h' : RoundsTo y L') (hxy : x ≤ y) :
    f64Value L ≤ f64Value L' := by
  by_contra hlt
  have hx := h.midpoint_le h'.1 (not_le.1 hlt)
  have hy := h'.le_midpoint h.1 (not_le.1 hlt)
  obtain rfl : x = y := by linarith
  exact h'.not_value_lt h (not_le.1 hlt)

theorem RoundsTo.posNormal {x : ℝ} {L v : F64} (h : RoundsTo x L) (hv : f64PosNormal v = true)
    (hx : (f64Value v : ℝ) ≤ x) : f64PosNormal L = true := by
  have hvL := (value_le_iff_of_proper (f64Proper_of_posNormal hv) h.1).1 (h.value_ge (f64Proper_of_posNormal hv) hx)
  have hlow := (f64PosNormal_iff.1 hv).1
  exact f64PosNormal_iff.2 ⟨by omega, f64Proper_iff.1 h.1⟩

/-! ### The operations round their exact results -/

theorem RoundedWord.roundsTo {x : ℚ} {q : Nat} {r : F64} (h : NormalRange x) (hr : RoundedWord x q r) :
    RoundsTo (x : ℝ) r := by
  refine ⟨hr.proper h, fun v hv => ?_⟩
  by_cases hne : v = r
  · exact ⟨hne ▸ le_rfl, fun hne' => absurd hne hne'⟩
  · obtain ⟨hle, htie⟩ := hr.nearest h hv hne
    exact ⟨by exact_mod_cast hle, fun _ heq => htie (by exact_mod_cast heq)⟩

theorem roundsTo_f64Of {n d : Nat} (hn : 0 < n) (hd : 0 < d) (h : NormalRange ((n : ℚ) / d)) :
    RoundsTo ((n / d : ℚ) : ℝ) (f64Of n d) := by
  obtain ⟨q, hr⟩ := exists_roundedWord_f64Of hn hd h
  exact hr.roundsTo h

theorem exists_fraction {x : ℚ} (hx : 0 < x) : ∃ n d : Nat, 0 < n ∧ 0 < d ∧ (n : ℚ) / d = x := by
  have hnum : 0 < x.num := Rat.num_pos.2 hx
  refine ⟨x.num.toNat, x.den, by omega, x.den_pos, ?_⟩
  rw [← Int.cast_natCast x.num.toNat, Int.toNat_of_nonneg hnum.le, Rat.num_div_den]

section
variable {a b : F64} (ha : f64Proper a = true) (hb : f64Proper b = true)
include ha hb

theorem roundsTo_fmul (h : NormalRange (f64Value a * f64Value b)) :
    RoundsTo ((f64Value a * f64Value b : ℚ) : ℝ) (fmul a b) := by
  obtain ⟨n, d, hn, hd, heq⟩ := exists_fraction h.pos
  rw [← heq] at h
  rw [fmul_eq_f64Of ha hb hn hd h heq, ← heq]
  exact roundsTo_f64Of hn hd h

theorem roundsTo_fdiv (hpos : 0 < f64Value b) (h : NormalRange (f64Value a / f64Value b)) :
    RoundsTo ((f64Value a / f64Value b : ℚ) : ℝ) (fdiv a b) := by
  obtain ⟨n, d, hn, hd, heq⟩ := exists_fraction h.pos
  rw [← heq] at h
  rw [fdiv_eq_f64Of ha hb hn hd h hpos heq, ← heq]
  exact roundsTo_f64Of hn hd h

theorem fmul_eq_of_value {v : F64} (hv : f64PosNormal v = true) (hval : f64Value v = f64Value a * f64Value b) :
    fmul a b = v :=
  (roundsTo_fmul ha hb (hval ▸ normalRange_value hv)).eq_of_value (f64Proper_of_posNormal hv) (congrArg _ hval)

theorem fdiv_eq_of_value (hpos : 0 < f64Value b) {v : F64} (hv : f64PosNormal v = true)
    (hval : f64Value v = f64Value a / f64Value b) : fdiv a b = v :=
  (roundsTo_fdiv ha hb hpos (hval ▸ normalRange_value hv)).eq_of_value (f64Proper_of_posNormal hv) (congrArg _ hval)

end

theorem f64Of_eq_of_value {n d : Nat} (hn : 0 < n) (hd : 0 < d) {v : F64} (hv : f64PosNormal v = true)
    (hval : f64Value v = (n : ℚ) / d) : f64Of n d = v :=
  (roundsTo_f64Of hn hd (hval ▸ normalRange_value hv)).eq_of_value (f64Proper_of_posNormal hv) (congrArg _ hval)

/-- A product with `+0.0` is `+0.0`. -/
theorem fmul_zero {a : F64} (ha : f64Proper a = true) : fmul a 0 = 0 := by
  have hs : f64Significand 0 = 0 := by decide
  have h0 : f64Proper 0 = true := by decide
  rw [fmul, ha, h0, Bool.and_self, if_pos rfl, hs, Nat.mul_zero]
  unfold f64Scaled f64Of
  simp

/-! ### Integers of at most 53 bits -/

section
variable {n : Nat} (hn : 0 < n) (hlt : n < 2 ^ 53)
include hn hlt

/-- The word of a positive integer below `2^53` holds it exactly. -/
theorem exists_word_of_nat : ∃ v : F64, f64PosNormal v = true ∧ f64Value v = n := by
  have hlog : Nat.log2 n < 53 := (Nat.log2_lt hn.ne').2 hlt
  have hlow : 2 ^ 52 ≤ n * 2 ^ (52 - Nat.log2 n) :=
    calc 2 ^ 52 = 2 ^ Nat.log2 n * 2 ^ (52 - Nat.log2 n) := by rw [← pow_add]; congr 1; omega
      _ ≤ n * 2 ^ (52 - Nat.log2 n) := Nat.mul_le_mul_right _ (Nat.log2_self_le hn.ne')
  have hhigh : n * 2 ^ (52 - Nat.log2 n) < 2 ^ 53 :=
    calc n * 2 ^ (52 - Nat.log2 n) < 2 ^ (Nat.log2 n + 1) * 2 ^ (52 - Nat.log2 n) :=
          Nat.mul_lt_mul_of_pos_right Nat.lt_log2_self (Nat.two_pow_pos _)
      _ = 2 ^ 53 := by rw [← pow_add]; congr 1; omega
  refine ⟨f64Pack (Nat.log2 n) (n * 2 ^ (52 - Nat.log2 n)), f64PosNormal_pack (by omega) (by omega) hlow hhigh, ?_⟩
  rw [f64Value_pack (by omega) (by omega) hlow hhigh, Nat.cast_mul, Nat.cast_pow, Nat.cast_two, ← zpow_natCast,
    mul_assoc, ← zpow_add₀ two_ne_zero, Nat.cast_sub (by omega), Nat.cast_ofNat, sub_add_sub_cancel, sub_self,
    zpow_zero, mul_one]

theorem f64OfNat_exact : f64PosNormal (f64OfNat n) = true ∧ f64Value (f64OfNat n) = n := by
  obtain ⟨v, hv, hval⟩ := exists_word_of_nat hn hlt
  rw [f64OfNat, f64Of_eq_of_value hn one_pos hv (by rw [hval, Nat.cast_one, div_one])]
  exact ⟨hv, hval⟩

end

end Sys2Proof.Machine
end

section
/-! PROOFS. The scan of `EST`, its frame and its repetition (42_estimate rules R71 to R76, R87). -/

namespace Sys2Proof.Machine

/-! ### What `EST` writes (rules R71, R87) -/

/-- Settles O31: the scan writes `ACC` and `VCNT`, and the response is added to what it leaves. -/
theorem estWritesOnlyItsScratch : Obligations.EstWritesOnlyItsScratch := fun _ hv =>
  ⟨_, exec_est_of_valid hv, rfl, fun _ => rfl⟩

/-- Settles O44: the second scan reads the same `P` and the same array. -/
theorem estRepeatsItsResponse : Obligations.EstRepeatsItsResponse := fun s hv =>
  ⟨_, _, _, exec_est_of_valid hv, exec_est_of_valid (s := pushResponse _ (scan s)) hv, rfl,
    List.append_assoc _ _ _, ⟨rfl, rfl, rfl⟩, ⟨rfl, rfl, rfl⟩⟩

/-! ### Sums and counts over the indices -/

theorem sumBelow_eq_sum (f : Nat → Nat) (n : Nat) : sumBelow f n = ∑ j ∈ Finset.range n, f j := by
  induction n with
  | zero => rfl
  | succ n ih => rw [sumBelow, ih, Finset.sum_range_succ]

theorem countBelow_eq_sum (f : Nat → Bool) (n : Nat) :
    countBelow f n = ∑ j ∈ Finset.range n, if f j then 1 else 0 := by
  induction n with
  | zero => rfl
  | succ n ih => rw [countBelow, ih, Finset.sum_range_succ]

theorem sumBelow_congr {f g : Nat → Nat} {n : Nat} (h : ∀ j, j < n → f j = g j) : sumBelow f n = sumBelow g n := by
  rw [sumBelow_eq_sum, sumBelow_eq_sum]
  exact Finset.sum_congr rfl fun j hj => h j (Finset.mem_range.1 hj)

/-- A sum over the indices, grouped by the value at each index (rule R73). -/
theorem sumBelow_by_value {g : Nat → Nat} {n K : Nat} (hg : ∀ j, j < n → g j < K) (f : Nat → Nat) :
    sumBelow (fun j => f (g j)) n = sumBelow (fun r => countBelow (fun j => g j == r) n * f r) K := by
  simp only [sumBelow_eq_sum, countBelow_eq_sum, Finset.sum_mul]
  rw [Finset.sum_comm]
  refine Finset.sum_congr rfl fun j hj => ?_
  simp [hg j (Finset.mem_range.1 hj)]

/-! ### The listed cells and the indices -/

/-- A new first cell changes one term, the term of a cell that held 0. -/
theorem sum_cellAt_cons (f : Byte → Nat) {low n : Nat} {c : Host.Cell} {cs : Cells}
    (h : Memory.wfFrom low (c :: cs) = true) (hc : c.1 < n) :
    ∑ j ∈ Finset.range n, f (cellAt (c :: cs) j) + f 0 = ∑ j ∈ Finset.range n, f (cellAt cs j) + f c.2 := by
  obtain ⟨-, -, htail⟩ := (wfFrom_cons low c cs).1 h
  have hmem := Finset.mem_range.2 hc
  have hold : cellAt cs c.1 = 0 := cellAt_eq_zero_of_lt htail (Nat.lt_succ_self _)
  have hrest : ∀ j ∈ (Finset.range n).erase c.1, f (cellAt (c :: cs) j) = f (cellAt cs j) := fun j hj => by
    rw [cellAt_cons, if_neg (Finset.ne_of_mem_erase hj).symm]
  rw [← Finset.add_sum_erase _ _ hmem, ← Finset.add_sum_erase _ (fun j => f (cellAt cs j)) hmem,
    Finset.sum_congr rfl hrest, cellAt_cons, if_pos rfl, hold]
  omega

/-- The sum over the indices is the sum over the listed cells, with a term for 0 at every other index. -/
theorem sum_cellAt (f : Byte → Nat) {low n : Nat} {cs : Cells} (h : Memory.wfFrom low cs = true)
    (hn : ∀ c ∈ cs, c.1 < n) :
    ∑ j ∈ Finset.range n, f (cellAt cs j) + cs.length * f 0 = n * f 0 + (cs.map fun c => f c.2).sum := by
  induction cs generalizing low with
  | nil => simp
  | cons c cs ih =>
    have hhead := sum_cellAt_cons f h (hn c List.mem_cons_self)
    have htail := ih (wfFrom_tail_pos h) fun d hd => hn d (List.mem_cons_of_mem c hd)
    rw [List.length_cons, List.map_cons, List.sum_cons, add_mul, one_mul]
    omega

theorem accListed_eq_sum (cs : Cells) : accListed cs = (cs.map fun c => accTerm c.2).sum := by
  induction cs with
  | nil => rfl
  | cons c cs ih => rw [accListed, ih, List.map_cons, List.sum_cons]

theorem accTerm_of_le {v : Byte} (hv : v.toNat ≤ 60) : accTerm v = 2 ^ (60 - v.toNat) := if_pos hv

section
variable {p : BitVec 5} {cs : Cells} (hw : Memory.wf cs = true) (hr : cellsInRange p cs = true)
include hw hr

/-- No more cells are listed than there are indices. -/
theorem zeroCells_add_length :
    (∑ j ∈ Finset.range (cellCount p), if cellAt cs j = 0 then 1 else 0) + cs.length = cellCount p := by
  have hsum := sum_cellAt (fun v => if v = 0 then 1 else 0) hw fun c hc => (cellsInRange_iff.1 hr c hc).1
  have hlisted : (cs.map fun c => if c.2 = 0 then 1 else 0).sum = 0 :=
    List.sum_eq_zero fun x hx => by
      obtain ⟨c, hc, rfl⟩ := List.mem_map.1 hx
      exact if_neg (wfFrom_ne_zero hw c hc)
  simp only [hlisted, if_true, mul_one, add_zero] at hsum
  exact hsum

theorem zeroCells_eq_countBelow : zeroCells p cs = countBelow (fun j => cellAt cs j == 0) (cellCount p) := by
  have hsum := zeroCells_add_length hw hr
  simp only [countBelow_eq_sum, beq_iff_eq]
  rw [zeroCells]
  omega

theorem scanSum_eq_sumBelow : scanSum p cs = sumBelow (fun j => accTerm (cellAt cs j)) (cellCount p) := by
  have hsum := sum_cellAt accTerm hw fun c hc => (cellsInRange_iff.1 hr c hc).1
  have hlength := zeroCells_add_length hw hr
  have hzero : accTerm 0 = 2 ^ 60 := rfl
  rw [hzero] at hsum
  rw [scanSum, accListed_eq_sum, sumBelow_eq_sum, show Config.accFrac = 60 from rfl]
  omega

end

/-! ### The cells of a reachable state (rule R23) -/

section
variable {s : State} (hinv : s.inv = true) (hv : s.valid = true)
include hinv hv

/-- Beyond the array no cell is listed. -/
theorem cellOf_eq_cellAt (j : Nat) : cellOf s j = cellAt s.regs j := by
  obtain ⟨-, -, -, hcells⟩ := (inv_iff_of_valid hv).1 hinv
  by_cases hj : hasCell s j = true
  · rw [cellOf, regRead_of_hasCell hj, Option.getD_some]
  · rw [cellOf, regRead_eq_none (by simpa using hj), Option.getD_none]
    by_contra hne
    exact hj (hasCell_iff.2 ⟨hv, (cellsInRange_iff.1 hcells _ (mem_of_cellAt_ne_zero (Ne.symm hne))).1⟩)

theorem cellOf_le (j : Nat) : (cellOf s j).toNat ≤ 64 - s.p.toNat := by
  obtain ⟨-, -, -, hcells⟩ := (inv_iff_of_valid hv).1 hinv
  rw [cellOf_eq_cellAt hinv hv]
  by_cases hzero : cellAt s.regs j = 0
  · rw [hzero]
    exact Nat.zero_le _
  · exact (cellsInRange_iff.1 hcells _ (mem_of_cellAt_ne_zero hzero)).2

theorem cellOf_le_sixty (j : Nat) : (cellOf s j).toNat ≤ 60 := by
  obtain ⟨-, hlow, -, -⟩ := (inv_iff_of_valid hv).1 hinv
  have := cellOf_le hinv hv j
  omega

/-! ### `ACC` and `VCNT` after the scan (rules R73, R75) -/

theorem scanAcc_eq_sumBelow :
    (scanAcc s.p s.regs).toNat = sumBelow (fun j => 2 ^ (60 - (cellOf s j).toNat)) (2 ^ s.p.toNat) := by
  obtain ⟨hw, -, hhigh, hcells⟩ := (inv_iff_of_valid hv).1 hinv
  have hsum : scanSum s.p s.regs = sumBelow (fun j => 2 ^ (60 - (cellOf s j).toNat)) (2 ^ s.p.toNat) := by
    rw [scanSum_eq_sumBelow hw hcells]
    refine sumBelow_congr fun j _ => ?_
    rw [← cellOf_eq_cellAt hinv hv, accTerm_of_le (cellOf_le_sixty hinv hv j)]
  have hfits : scanSum s.p s.regs < 2 ^ 79 :=
    calc scanSum s.p s.regs
      _ ≤ ∑ _j ∈ Finset.range (2 ^ s.p.toNat), 2 ^ 60 := by
          rw [hsum, sumBelow_eq_sum]
          exact Finset.sum_le_sum fun j _ => Nat.pow_le_pow_right two_pos (Nat.sub_le _ _)
      _ ≤ 2 ^ 18 * 2 ^ 60 := by
          rw [Finset.sum_const, Finset.card_range, smul_eq_mul]
          exact Nat.mul_le_mul_right _ (Nat.pow_le_pow_right two_pos hhigh)
      _ < 2 ^ 79 := by decide
  rw [scanAcc_toNat hfits, hsum]

theorem scanVcnt_eq_countBelow :
    (scanVcnt s.p s.regs).toNat = countBelow (fun j => cellOf s j == 0) (2 ^ s.p.toNat) := by
  obtain ⟨hw, -, hhigh, hcells⟩ := (inv_iff_of_valid hv).1 hinv
  have hfits : zeroCells s.p s.regs < 2 ^ 19 :=
    calc zeroCells s.p s.regs
      _ ≤ 2 ^ s.p.toNat := Nat.sub_le _ _
      _ ≤ 2 ^ 18 := Nat.pow_le_pow_right two_pos hhigh
      _ < 2 ^ 19 := by decide
  rw [scanVcnt_toNat hfits, zeroCells_eq_countBelow hw hcells]
  simp only [cellOf_eq_cellAt hinv hv]
  rfl

theorem scanAcc_by_value :
    (scanAcc s.p s.regs).toNat =
      sumBelow (fun r => countBelow (fun j => (cellOf s j).toNat == r) (2 ^ s.p.toNat) * 2 ^ (60 - r)) 61 := by
  rw [scanAcc_eq_sumBelow hinv hv]
  exact sumBelow_by_value (fun j _ => Nat.lt_succ_of_le (cellOf_le_sixty hinv hv j)) fun r => 2 ^ (60 - r)

end

/-- Settles O32: the listed cells and the others give the sum over the indices, which is then grouped by value. -/
theorem accumulatorIsTheSum : Obligations.AccumulatorIsTheSum := fun _ hinv hv =>
  ⟨_, exec_est_of_valid hv, cellOf_le_sixty hinv hv, scanAcc_eq_sumBelow hinv hv, scanAcc_by_value hinv hv⟩

/-- Settles O33: the listed cells are the cells that do not hold 0. -/
theorem zeroCountIsTheCount : Obligations.ZeroCountIsTheCount := fun _ hinv hv =>
  ⟨_, exec_est_of_valid hv, scanVcnt_eq_countBelow hinv hv⟩

/-! ### Equal counts give equal sums (rule R87) -/

theorem countBelow_toNat_eq (f : Nat → Byte) (n : Nat) {r : Nat} (hr : r < 2 ^ 8) :
    countBelow (fun j => (f j).toNat == r) n = countBelow (fun j => f j == BitVec.ofNat 8 r) n := by
  congr 1
  funext j
  rw [Bool.eq_iff_iff, beq_iff_eq, beq_iff_eq, BitVec.toNat_eq, BitVec.toNat_ofNat, Nat.mod_eq_of_lt hr]

/-- Settles O45: both registers are sums over the values of the numbers of cells that hold them. -/
theorem estDependsOnCellCountsOnly : Obligations.EstDependsOnCellCountsOnly := by
  intro s s' hinv hinv' hv hv' hp hcount
  have hacc : scanAcc s.p s.regs = scanAcc s'.p s'.regs := by
    refine BitVec.eq_of_toNat_eq ?_
    rw [scanAcc_by_value hinv hv, scanAcc_by_value hinv' hv', ← hp]
    refine sumBelow_congr fun r hr => ?_
    rw [countBelow_toNat_eq _ _ (by omega), countBelow_toNat_eq _ _ (by omega), hcount]
  have hvcnt : scanVcnt s.p s.regs = scanVcnt s'.p s'.regs := by
    refine BitVec.eq_of_toNat_eq ?_
    rw [scanVcnt_eq_countBelow hinv hv, scanVcnt_eq_countBelow hinv' hv', ← hp, hcount]
  refine ⟨_, _, _, exec_est_of_valid hv, exec_est_of_valid hv', rfl, ?_, hacc, hvcnt⟩
  rw [hacc, hvcnt, hp]
  rfl

/-! ### The bounds of the two registers (rules R74, R76) -/

theorem sum_range_two_pow (p k : Nat) : ∑ _j ∈ Finset.range (2 ^ p), 2 ^ k = 2 ^ (p + k) := by
  rw [Finset.sum_const, Finset.card_range, smul_eq_mul, ← pow_add]

/-- The count is the whole range exactly where every index is counted. -/
theorem countBelow_le (f : Nat → Bool) (n : Nat) :
    countBelow f n ≤ n ∧ (countBelow f n = n ↔ ∀ j, j < n → f j = true) := by
  induction n with
  | zero => simp [countBelow]
  | succ n ih =>
    obtain ⟨hle, heq⟩ := ih
    rw [countBelow, Nat.forall_lt_succ_right, ← heq]
    split
    · next hn => exact ⟨by omega, by simp [hn]⟩
    · next hn => exact ⟨by omega, iff_of_false (by omega) fun h => hn h.2⟩

theorem byte_eq_zero_iff {v : Byte} : v = 0 ↔ v.toNat = 0 := BitVec.toNat_eq

/-- A cell adds `2^60` when it holds 0, and otherwise at most `2^59`. -/
theorem term_bounds {s : State} (j : Nat) :
    (if cellOf s j = 0 then 1 else 0) * 2 ^ 60 ≤ 2 ^ (60 - (cellOf s j).toNat) ∧
      2 ^ (60 - (cellOf s j).toNat) ≤ (if cellOf s j = 0 then 1 else 0) * 2 ^ 59 + 2 ^ 59 := by
  split
  · next hzero => rw [hzero]; decide
  · next hne =>
    have hpos : (cellOf s j).toNat ≠ 0 := mt byte_eq_zero_iff.2 hne
    have hle : 2 ^ (60 - (cellOf s j).toNat) ≤ 2 ^ 59 := Nat.pow_le_pow_right two_pos (by omega)
    exact ⟨by simp, by omega⟩

/-- A count `v` of `m` in which each member adds one half and every index one half. -/
theorem le_of_le_halves {a v m : Nat} (hv : v ≤ m) (h : a ≤ v * 2 ^ 59 + m * 2 ^ 59) :
    a ≤ v * 2 ^ 60 + (m - v) * 2 ^ 59 := by
  obtain ⟨k, rfl⟩ := Nat.exists_eq_add_of_le hv
  rw [Nat.add_sub_cancel_left]
  linarith

section
variable {s : State} (hinv : s.inv = true) (hv : s.valid = true)
include hinv hv

theorem le_term (j : Nat) : 2 ^ (s.p.toNat - 4) ≤ 2 ^ (60 - (cellOf s j).toNat) := by
  have := cellOf_le hinv hv j
  exact Nat.pow_le_pow_right two_pos (by omega)

theorem scanAcc_ge : 2 ^ (2 * s.p.toNat - 4) ≤ (scanAcc s.p s.regs).toNat ∧
    ((scanAcc s.p s.regs).toNat = 2 ^ (2 * s.p.toNat - 4) ↔
      ∀ j, j < 2 ^ s.p.toNat → (cellOf s j).toNat = 64 - s.p.toNat) := by
  obtain ⟨-, hlow, hhigh, -⟩ := (inv_iff_of_valid hv).1 hinv
  have hleast : 2 ^ (2 * s.p.toNat - 4) = ∑ _j ∈ Finset.range (2 ^ s.p.toNat), 2 ^ (s.p.toNat - 4) := by
    rw [sum_range_two_pow]
    congr 1
    omega
  rw [scanAcc_eq_sumBelow hinv hv, sumBelow_eq_sum, hleast, eq_comm,
    Finset.sum_eq_sum_iff_of_le fun j _ => le_term hinv hv j]
  refine ⟨Finset.sum_le_sum fun j _ => le_term hinv hv j, forall_congr' fun j => ?_⟩
  have hle := cellOf_le hinv hv j
  rw [Finset.mem_range, Nat.pow_right_inj one_lt_two]
  exact imp_congr_right fun _ => by omega

theorem scanAcc_le : (scanAcc s.p s.regs).toNat ≤ 2 ^ (s.p.toNat + 60) ∧
    ((scanAcc s.p s.regs).toNat = 2 ^ (s.p.toNat + 60) ↔ ∀ j, j < 2 ^ s.p.toNat → cellOf s j = 0) := by
  have hterm : ∀ j ∈ Finset.range (2 ^ s.p.toNat), 2 ^ (60 - (cellOf s j).toNat) ≤ 2 ^ 60 := fun j _ =>
    Nat.pow_le_pow_right two_pos (Nat.sub_le _ _)
  rw [scanAcc_eq_sumBelow hinv hv, sumBelow_eq_sum, ← sum_range_two_pow, Finset.sum_eq_sum_iff_of_le hterm]
  refine ⟨Finset.sum_le_sum hterm, forall_congr' fun j => ?_⟩
  have hle := cellOf_le_sixty hinv hv j
  rw [Finset.mem_range, Nat.pow_right_inj one_lt_two, byte_eq_zero_iff]
  exact imp_congr_right fun _ => by omega

theorem scanVcnt_le : (scanVcnt s.p s.regs).toNat ≤ 2 ^ s.p.toNat ∧
    ((scanVcnt s.p s.regs).toNat = 2 ^ s.p.toNat ↔ ∀ j, j < 2 ^ s.p.toNat → cellOf s j = 0) := by
  rw [scanVcnt_eq_countBelow hinv hv]
  simpa only [beq_iff_eq] using countBelow_le (fun j => cellOf s j == 0) (2 ^ s.p.toNat)

theorem scanAcc_between :
    (scanVcnt s.p s.regs).toNat * 2 ^ 60 ≤ (scanAcc s.p s.regs).toNat ∧
      (scanAcc s.p s.regs).toNat ≤
        (scanVcnt s.p s.regs).toNat * 2 ^ 60 + (2 ^ s.p.toNat - (scanVcnt s.p s.regs).toNat) * 2 ^ 59 := by
  have hsum : (scanVcnt s.p s.regs).toNat = ∑ j ∈ Finset.range (2 ^ s.p.toNat), if cellOf s j = 0 then 1 else 0 := by
    rw [scanVcnt_eq_countBelow hinv hv, countBelow_eq_sum]
    simp only [beq_iff_eq]
  refine ⟨?_, le_of_le_halves (scanVcnt_le hinv hv).1 ?_⟩
  · rw [scanAcc_eq_sumBelow hinv hv, sumBelow_eq_sum, hsum, Finset.sum_mul]
    exact Finset.sum_le_sum fun j _ => (term_bounds j).1
  · rw [scanAcc_eq_sumBelow hinv hv, sumBelow_eq_sum, hsum, ← pow_add, ← sum_range_two_pow, Finset.sum_mul,
      ← Finset.sum_add_distrib]
    exact Finset.sum_le_sum fun j _ => (term_bounds j).2

end

/-- Settles O34: every bound holds term by term, and is met where every term meets it. -/
theorem accumulatorAndCountBounds : Obligations.AccumulatorAndCountBounds := fun _ hinv hv =>
  have ⟨hge, hgeEq⟩ := scanAcc_ge hinv hv
  have ⟨hle, hleEq⟩ := scanAcc_le hinv hv
  have ⟨hvcnt, hvcntEq⟩ := scanVcnt_le hinv hv
  have ⟨hlow, hhigh⟩ := scanAcc_between hinv hv
  ⟨_, exec_est_of_valid hv, hge, hle, hgeEq, hleEq, hvcnt, hvcntEq, hlow, hhigh⟩

end Sys2Proof.Machine
end

section
/-! PROOFS. The conversion of `ACC`, the table, and the exact products of `EST` (42_estimate rules R77 to R84). -/

namespace Sys2Proof.Machine

/-! ### Words of powers of two -/

section
variable {e : ℤ} (he : -1022 ≤ e) (he' : e ≤ 1023)
include he he'

theorem f64PosNormal_twoPow : f64PosNormal (f64Pack e (2 ^ 52)) = true :=
  f64PosNormal_pack he he' le_rfl (by decide)

theorem f64Value_twoPow : f64Value (f64Pack e (2 ^ 52)) = 2 ^ e := by
  rw [f64Value_pack he he' le_rfl (by decide), Nat.cast_pow, Nat.cast_two, ← zpow_natCast, ← zpow_add₀ two_ne_zero]
  congr 1
  omega

/-- Rounding keeps a lower bound that is a power of two, and so gives a normal number. -/
theorem RoundsTo.two_zpow_le {x : ℚ} {L : F64} (h : RoundsTo (x : ℝ) L) (hx : (2 : ℚ) ^ e ≤ x) :
    f64PosNormal L = true ∧ (2 : ℚ) ^ e ≤ f64Value L := by
  have hword := f64PosNormal_twoPow he he'
  rw [← f64Value_twoPow he he'] at hx ⊢
  exact ⟨h.posNormal hword (Rat.cast_le.2 hx), h.value_ge (f64Proper_of_posNormal hword) (Rat.cast_le.2 hx)⟩

/-- Rounding keeps an upper bound that is a power of two. -/
theorem RoundsTo.le_two_zpow {x : ℚ} {L : F64} (h : RoundsTo (x : ℝ) L) (hx : x ≤ (2 : ℚ) ^ e) :
    f64Value L ≤ (2 : ℚ) ^ e := by
  have hword := f64Proper_of_posNormal (f64PosNormal_twoPow he he')
  rw [← f64Value_twoPow he he'] at hx ⊢
  exact h.value_le hword (Rat.cast_le.2 hx)

end

/-! ### The conversion (rule R77) -/

theorem log_eq_of_bounds {x : ℚ} {e : ℤ} (hlow : (2 : ℚ) ^ e ≤ x) (hhigh : x < (2 : ℚ) ^ (e + 1)) :
    Int.log 2 x = e := by
  have hx : 0 < x := lt_of_lt_of_le (by positivity) hlow
  have hle := (two_zpow_le_iff hx e).1 hlow
  have hlt := mt (two_zpow_le_iff hx (e + 1)).2 (not_le.2 hhigh)
  omega

theorem div_accScale (A : Nat) : (A : ℚ) / (2 ^ 60 : Nat) = A * 2 ^ (-60 : ℤ) := by
  rw [div_eq_mul_inv, zpow_neg]
  norm_num

theorem log_accValue {A : Nat} (hA : 0 < A) : Int.log 2 ((A : ℚ) / (2 ^ 60 : Nat)) = Nat.log2 A - 60 := by
  obtain ⟨hlow, hhigh⟩ := log2_bounds hA
  rw [div_accScale]
  refine log_eq_of_bounds ?_ ?_
  · rw [sub_eq_add_neg, zpow_add₀ two_ne_zero]
    gcongr
  · rw [sub_eq_add_neg, add_right_comm, zpow_add₀ two_ne_zero]
    gcongr

/-- The significand the conversion rounds `A` to, before the carry. -/
def convertedSignificand (A : Nat) : Nat :=
  if Nat.log2 A ≤ 52 then A * 2 ^ (52 - Nat.log2 A) else roundHalfEven A (2 ^ (Nat.log2 A - 52))

theorem roundHalfEven_two_pow (A s : Nat) :
    roundHalfEven A (2 ^ (s + 1)) =
      if 2 ^ s < A % 2 ^ (s + 1) ∨ (A % 2 ^ (s + 1) = 2 ^ s ∧ (A >>> (s + 1)) % 2 = 1)
      then A >>> (s + 1) + 1 else A >>> (s + 1) := by
  have hup : 2 ^ (s + 1) < 2 * (A % 2 ^ (s + 1)) ↔ 2 ^ s < A % 2 ^ (s + 1) := by omega
  have htie : 2 * (A % 2 ^ (s + 1)) = 2 ^ (s + 1) ↔ A % 2 ^ (s + 1) = 2 ^ s := by omega
  simp only [roundHalfEven, Nat.shiftRight_eq_div_pow, hup, htie]

theorem convertedSignificand_lt {A : Nat} (hk : Nat.log2 A ≤ 52) : convertedSignificand A < 2 ^ 53 := by
  rw [convertedSignificand, if_pos hk]
  calc A * 2 ^ (52 - Nat.log2 A) < 2 ^ (Nat.log2 A + 1) * 2 ^ (52 - Nat.log2 A) :=
        Nat.mul_lt_mul_of_pos_right Nat.lt_log2_self (Nat.two_pow_pos _)
    _ = 2 ^ 53 := by rw [← pow_add]; congr 1; omega

/-- The conversion packs the rounded significand, or the next power of two where it carries. -/
theorem cvt_eq_pack {A : Nat} (hA : 0 < A) :
    cvt A = if convertedSignificand A = 2 ^ 53 then f64Pack ((Nat.log2 A : ℤ) + 1 - 60) (2 ^ 52)
      else f64Pack ((Nat.log2 A : ℤ) - 60) (convertedSignificand A) := by
  rcases Nat.lt_or_ge 52 (Nat.log2 A) with hk | hk
  · obtain ⟨s, hs⟩ : ∃ s, Nat.log2 A - 52 = s + 1 := ⟨Nat.log2 A - 53, by omega⟩
    simp only [cvt, floorLog2, if_neg hA.ne', if_neg (not_le.2 hk), convertedSignificand, hs, roundHalfEven_two_pow,
      Nat.add_sub_cancel]
  · rw [if_neg (convertedSignificand_lt hk).ne]
    simp only [cvt, floorLog2, if_neg hA.ne', if_pos hk, convertedSignificand, Nat.shiftLeft_eq]

theorem nearestEven_natCast (n : Nat) : NearestEven (n : ℚ) n := by
  simp [NearestEven]

theorem nearestEven_convertedSignificand {A : Nat} (hA : 0 < A) :
    NearestEven ((A : ℚ) / (2 ^ 60 : Nat) * 2 ^ (52 - Int.log 2 ((A : ℚ) / (2 ^ 60 : Nat))))
      (convertedSignificand A) := by
  have hscale : (A : ℚ) / (2 ^ 60 : Nat) * 2 ^ (52 - Int.log 2 ((A : ℚ) / (2 ^ 60 : Nat))) =
      A * 2 ^ (52 - Nat.log2 A : ℤ) := by
    rw [log_accValue hA, div_accScale, mul_assoc, ← zpow_add₀ two_ne_zero]
    congr 2
    omega
  rw [hscale, convertedSignificand]
  split
  · next hk =>
    rw [two_zpow_of_nonneg (by omega), ← Nat.cast_mul, show (52 - Nat.log2 A : ℤ).toNat = 52 - Nat.log2 A by omega]
    exact nearestEven_natCast _
  · next hk =>
    rw [two_zpow_of_neg (by omega), ← div_eq_mul_inv,
      show (-(52 - Nat.log2 A : ℤ)).toNat = Nat.log2 A - 52 by omega]
    exact nearestEven_roundHalfEven A (Nat.two_pow_pos _)

theorem normalRange_accValue {A : Nat} (hA : 0 < A) (hlt : A < 2 ^ 79) : NormalRange ((A : ℚ) / (2 ^ 60 : Nat)) := by
  have hlow : (1 : ℚ) ≤ A := by exact_mod_cast hA
  have hhigh : (A : ℚ) ≤ 2 ^ 79 := by exact_mod_cast hlt.le
  refine normalRange_of_bounds ?_ ?_
  · rw [le_div_iff₀ (by norm_num)]
    exact le_trans (by norm_num) hlow
  · rw [div_le_iff₀ (by norm_num)]
    exact le_trans hhigh (by norm_num)

theorem roundedWord_cvt {A : Nat} (hA : 0 < A) (hlt : A < 2 ^ 79) :
    RoundedWord ((A : ℚ) / (2 ^ 60 : Nat)) (convertedSignificand A) (cvt A) := by
  have hnear := nearestEven_convertedSignificand hA
  obtain ⟨hlow, hhigh, -⟩ := (normalRange_accValue hA hlt).significand_bounds hnear
  have hlog : Nat.log2 A < 79 := (Nat.log2_lt hA.ne').2 hlt
  refine ⟨hnear, ?_⟩
  rw [cvt_eq_pack hA, log_accValue hA]
  split
  · next hcarry =>
    rw [f64Pack_toNat (by omega) (by omega) le_rfl (by decide)]
    omega
  · next hkeep =>
    rw [f64Pack_toNat (by omega) (by omega) hlow (by omega)]
    omega

theorem roundsTo_cvt {A : Nat} (hA : 0 < A) (hlt : A < 2 ^ 79) :
    RoundsTo ((A / (2 ^ 60 : Nat) : ℚ) : ℝ) (cvt A) :=
  (roundedWord_cvt hA hlt).roundsTo (normalRange_accValue hA hlt)

theorem cvt_eq_f64Of {A : Nat} (hA : 0 < A) (hlt : A < 2 ^ 79) : cvt A = f64Of A (2 ^ 60) := by
  obtain ⟨q, hr⟩ := exists_roundedWord_f64Of hA (Nat.two_pow_pos 60) (normalRange_accValue hA hlt)
  exact (roundedWord_cvt hA hlt).unique hr

/-- The conversion keeps bounds that are powers of two. -/
theorem cvt_bounds {A a b : Nat} (hlt : A < 2 ^ 79) (hb : b ≤ 79) (hlow : 2 ^ a ≤ A) (hhigh : A ≤ 2 ^ b) :
    f64PosNormal (cvt A) = true ∧ (2 : ℚ) ^ ((a : ℤ) - 60) ≤ f64Value (cvt A) ∧
      f64Value (cvt A) ≤ (2 : ℚ) ^ ((b : ℤ) - 60) := by
  have hround := roundsTo_cvt (lt_of_lt_of_le (Nat.two_pow_pos a) hlow) hlt
  have hab : a ≤ b := (Nat.pow_le_pow_iff_right one_lt_two).1 (hlow.trans hhigh)
  have hpow : ∀ k : Nat, (2 : ℚ) ^ ((k : ℤ) - 60) = (2 ^ k : Nat) * 2 ^ (-60 : ℤ) := fun k => by
    rw [sub_eq_add_neg, zpow_add₀ two_ne_zero, zpow_natCast, Nat.cast_pow, Nat.cast_two]
  obtain ⟨hnormal, hge⟩ := hround.two_zpow_le (e := (a : ℤ) - 60) (by omega) (by omega)
    (by rw [div_accScale, hpow]; gcongr)
  exact ⟨hnormal, hge, hround.le_two_zpow (by omega) (by omega) (by rw [div_accScale, hpow]; gcongr)⟩

/-- Settles O35: both algorithms give the rounded word of `A / 2^60`, and rounding keeps the bounds `2^-56` and
`2^18`. -/
theorem conversionIsOneRounding : Obligations.ConversionIsOneRounding := by
  intro A hA hlt
  refine ⟨cvt_eq_f64Of hA hlt, (cvt_bounds (a := 0) hlt le_rfl hA hlt.le).1, fun hlow hhigh => ?_⟩
  obtain ⟨hnormal, hge, hle⟩ := cvt_bounds (a := 4) hlt (by decide) hlow hhigh
  have hproper := f64Proper_of_posNormal hnormal
  have hgeWord : 967 * 2 ^ 52 ≤ (cvt A).toNat := by
    rw [← f64Value_twoPow (by decide) (by decide), value_le_iff_of_proper (by decide) hproper] at hge
    exact hge
  have hleWord : (cvt A).toNat ≤ 1041 * 2 ^ 52 := by
    rw [← f64Value_twoPow (by decide) (by decide), value_le_iff_of_proper hproper (by decide)] at hle
    exact hle
  rw [f64Exponent_eq (by omega)]
  refine ⟨by omega, by omega, le_of_eq_of_le ?_ hge, hle.trans_eq ?_⟩ <;> norm_num [zpow_neg]

/-! ### The table (rules R78 to R80) -/

/-- Settles O39: the formula is evaluated at each of the fifteen precisions. -/
theorem tableIsTheEvaluatedFormula : Obligations.TableIsTheEvaluatedFormula := by
  unfold Obligations.TableIsTheEvaluatedFormula
  decide

/-- Biased exponent 1022: every entry is from 1/2 up to below 1. -/
theorem alphaLut_toNat_bounds {p : BitVec 5} (hlow : 4 ≤ p.toNat) (hhigh : p.toNat ≤ 18) :
    0x3FE0000000000000 ≤ (alphaLut p).toNat ∧ (alphaLut p).toNat < 0x3FF0000000000000 := by
  revert p
  decide

theorem alphaLut_posNormal {p : BitVec 5} (hlow : 4 ≤ p.toNat) (hhigh : p.toNat ≤ 18) :
    f64PosNormal (alphaLut p) = true := by
  have := alphaLut_toNat_bounds hlow hhigh
  rw [f64PosNormal_iff]
  omega

/-! ### The exact products (rules R81, R83, R84) -/

theorem f64M_exact (p : BitVec 5) : f64PosNormal (f64M p) = true ∧ f64Value (f64M p) = 2 ^ p.toNat := by
  have hlt : cellCount p < 2 ^ 53 := Nat.pow_lt_pow_right one_lt_two (by omega)
  obtain ⟨hnormal, hval⟩ := f64OfNat_exact (cellCount_pos p) hlt
  exact ⟨hnormal, hval.trans (by rw [cellCount, Nat.cast_pow, Nat.cast_two])⟩

theorem f64M_proper (p : BitVec 5) : f64Proper (f64M p) = true := f64Proper_of_posNormal (f64M_exact p).1

section
variable {p : BitVec 5} {L : F64} (hL : f64PosNormal L = true) (hlt : L.toNat + p.toNat * 2 ^ 52 < 0x7FF0000000000000)
include hL hlt

/-- A product with `m` raises the exponent field by `p`, and is exact. -/
theorem fmul_f64M_left : fmul (f64M p) L = raiseExponent p.toNat L :=
  fmul_eq_of_value (f64M_proper p) (f64Proper_of_posNormal hL) (f64PosNormal_raiseExponent hL hlt)
    (by rw [f64Value_raiseExponent hL hlt, (f64M_exact p).2, mul_comm])

theorem fmul_f64M_right : fmul L (f64M p) = raiseExponent p.toNat L :=
  fmul_eq_of_value (f64Proper_of_posNormal hL) (f64M_proper p) (f64PosNormal_raiseExponent hL hlt)
    (by rw [f64Value_raiseExponent hL hlt, (f64M_exact p).2])

end

section
variable {p : BitVec 5} (hlow : 4 ≤ p.toNat) (hhigh : p.toNat ≤ 18)
include hlow hhigh

theorem fmul_alphaLut_f64M : fmul (alphaLut p) (f64M p) = raiseExponent p.toNat (alphaLut p) := by
  have := alphaLut_toNat_bounds hlow hhigh
  exact fmul_f64M_right (alphaLut_posNormal hlow hhigh) (by omega)

theorem numeratorN_eq : numeratorN p = raiseExponent (2 * p.toNat) (alphaLut p) := by
  have hbounds := alphaLut_toNat_bounds hlow hhigh
  have hnormal := f64PosNormal_raiseExponent (k := p.toNat) (alphaLut_posNormal hlow hhigh) (by omega)
  rw [numeratorN, fmul_alphaLut_f64M hlow hhigh,
    fmul_f64M_right hnormal (by rw [toNat_raiseExponent (by omega)]; omega), raiseExponent_raiseExponent, two_mul]

end

theorem f64Value_fiveHalves : f64Value 0x4004000000000000 = 5 / 2 :=
  (f64Value_of_fields (sig := 5 * 2 ^ 50) (k := 51) (by decide) (by decide)).trans (by norm_num)

theorem thresholdT_word (p : BitVec 5) :
    f64PosNormal (raiseExponent p.toNat 0x4004000000000000) = true ∧
      f64Value (raiseExponent p.toNat 0x4004000000000000) = 5 / 2 * 2 ^ p.toNat := by
  have hnormal : f64PosNormal 0x4004000000000000 = true := by decide
  have hlt : (0x4004000000000000 : F64).toNat + p.toNat * 2 ^ 52 < 0x7FF0000000000000 := by
    rw [show (0x4004000000000000 : F64).toNat = 0x4004000000000000 from rfl]
    omega
  exact ⟨f64PosNormal_raiseExponent hnormal hlt, by rw [f64Value_raiseExponent hnormal hlt, f64Value_fiveHalves]⟩

theorem thresholdT_eq (p : BitVec 5) : thresholdT p = raiseExponent p.toNat 0x4004000000000000 := by
  obtain ⟨hnormal, hval⟩ := thresholdT_word p
  refine f64Of_eq_of_value (Nat.mul_pos (by decide) (cellCount_pos p)) two_pos hnormal ?_
  rw [hval, cellCount, Nat.cast_mul, Nat.cast_pow, Nat.cast_two, Nat.cast_ofNat]
  ring

theorem thresholdT_exact (p : BitVec 5) :
    f64PosNormal (thresholdT p) = true ∧ f64Value (thresholdT p) = 5 / 2 * 2 ^ p.toNat :=
  (thresholdT_eq p).symm ▸ thresholdT_word p

/-- Settles O38: multiplying by `m = 2^p` raises the exponent field by `p`. -/
theorem productsByPowersOfTwoAreExact : Obligations.ProductsByPowersOfTwoAreExact := by
  intro p hlow hhigh
  exact ⟨numeratorN_eq hlow hhigh, thresholdT_eq p, (thresholdT_exact p).2, fmul_zero (f64M_proper p),
    fun L hL hlt => fmul_f64M_left hL (by omega)⟩

end Sys2Proof.Machine
end

section
/-! PROOFS. The logarithm unit (42_estimate rules R85, R89). -/

namespace Sys2Proof.Machine

/-! ### The words on either side of a word -/

theorem toNat_sub_one {a : F64} (h : a ≠ 0) : (a - 1).toNat = a.toNat - 1 := by
  have hpos : a.toNat ≠ 0 := fun h0 => h (BitVec.eq_of_toNat_eq h0)
  have hone : (1 : F64).toNat = 1 := rfl
  rw [BitVec.toNat_sub_of_le (by rw [BitVec.le_def]; omega), hone]

theorem add_one_spec {a : F64} (h : a.toNat < f64Max) : f64Proper (a + 1) = true ∧ (a + 1).toNat = a.toNat + 1 := by
  unfold f64Max at h
  have hnext := toNat_add_one (a := a) (by omega)
  exact ⟨f64Proper_iff.2 (by omega), hnext⟩

theorem sub_one_spec {a : F64} (ha : f64Proper a = true) (h0 : a ≠ 0) :
    f64Proper (a - 1) = true ∧ (a - 1).toNat < a.toNat := by
  have ha' := f64Proper_iff.1 ha
  have hprev := toNat_sub_one h0
  have hpos : a.toNat ≠ 0 := fun hz => h0 (BitVec.eq_of_toNat_eq hz)
  exact ⟨f64Proper_iff.2 (by omega), by omega⟩

theorem value_le_of_lt_value_add_one {a b : F64} (ha : f64Proper a = true) (hb : f64Proper b = true)
    (h : f64Value a < f64Value (b + 1)) : f64Value a ≤ f64Value b := by
  have ha' := f64Proper_iff.1 ha
  have hb' := f64Proper_iff.1 hb
  have hnext := toNat_add_one (a := b) (by omega)
  rw [← not_le, f64Value_le_iff (by omega) (by omega), hnext] at h
  rw [value_le_iff_of_proper ha hb]
  omega

theorem value_le_of_value_sub_one_lt {a b : F64} (ha : f64Proper a = true) (hb : f64Proper b = true) (h0 : a ≠ 0)
    (h : f64Value (a - 1) < f64Value b) : f64Value a ≤ f64Value b := by
  have ha' := f64Proper_iff.1 ha
  have hb' := f64Proper_iff.1 hb
  have hprev := toNat_sub_one h0
  rw [← not_le, f64Value_le_iff (by omega) (by omega), hprev] at h
  rw [value_le_iff_of_proper ha hb]
  omega

/-! ### Faithful words -/

section
variable {x : ℝ} {L v : F64} (h : FaithfulTo x L) (hL : f64Proper L = true) (hv : f64Proper v = true)
include h hL hv

theorem FaithfulTo.value_ge (hx : (f64Value v : ℝ) ≤ x) : f64Value v ≤ f64Value L := by
  rcases h with ⟨-, hnext⟩ | ⟨-, -, hle⟩
  · exact value_le_of_lt_value_add_one hv hL (Rat.cast_lt.1 (hx.trans_lt hnext))
  · exact Rat.cast_le.1 (hx.trans hle)

theorem FaithfulTo.value_le (hx : x ≤ (f64Value v : ℝ)) : f64Value L ≤ f64Value v := by
  rcases h with ⟨hle, -⟩ | ⟨h0, hprev, -⟩
  · exact Rat.cast_le.1 (hle.trans hx)
  · exact value_le_of_value_sub_one_lt hL hv h0 (Rat.cast_lt.1 (hprev.trans_le hx))

end

/-- A rounded word below the greatest finite one is faithful. -/
theorem RoundsTo.faithful {x : ℝ} {L : F64} (h : RoundsTo x L) (hx : 0 ≤ x) (hmax : L.toNat < f64Max) :
    FaithfulTo x L := by
  rcases le_or_gt (f64Value L : ℝ) x with hle | hgt
  · obtain ⟨hproper, hnext⟩ := add_one_spec hmax
    refine .inl ⟨hle, lt_of_not_ge fun hge => ?_⟩
    have hback := (value_le_iff_of_proper hproper h.1).1 (h.value_ge hproper hge)
    omega
  · have h0 : L ≠ 0 := by
      rintro rfl
      rw [f64Value_zero, Rat.cast_zero] at hgt
      exact absurd hx (not_le.2 hgt)
    obtain ⟨hproper, hprev⟩ := sub_one_spec h.1 h0
    refine .inr ⟨h0, lt_of_not_ge fun hge => ?_, hgt.le⟩
    have hback := (value_le_iff_of_proper h.1 hproper).1 (h.value_le hproper hge)
    omega

theorem raiseExponent_add_one (k : Nat) (a : F64) : raiseExponent k (a + 1) = raiseExponent k a + 1 :=
  add_right_comm a 1 _

theorem raiseExponent_sub_one (k : Nat) (a : F64) : raiseExponent k (a - 1) = raiseExponent k a - 1 := by
  rw [raiseExponent, raiseExponent, BitVec.sub_eq_add_neg, BitVec.sub_eq_add_neg, add_right_comm]

/-- Among normal numbers, raising the exponent field takes the words around `x` to the words around `2^k * x`. -/
theorem FaithfulTo.mul_two_pow {x : ℝ} {L : F64} (h : FaithfulTo x L) {k : Nat}
    (hlow : 0x0010000000000000 < L.toNat) (hhigh : L.toNat + 1 + k * 2 ^ 52 < 0x7FF0000000000000) :
    FaithfulTo (2 ^ k * x) (raiseExponent k L) := by
  have hpow : (0 : ℝ) < 2 ^ k := by positivity
  have hL0 : L ≠ 0 := by
    rintro rfl
    exact absurd hlow (by decide)
  have hscale : ∀ {v : F64}, 0x0010000000000000 ≤ v.toNat → v.toNat ≤ L.toNat + 1 →
      (f64Value (raiseExponent k v) : ℝ) = 2 ^ k * f64Value v := fun hv hv' => by
    rw [f64Value_raiseExponent (f64PosNormal_iff.2 ⟨hv, by omega⟩) (by omega), Rat.cast_mul, Rat.cast_pow,
      Rat.cast_ofNat, mul_comm]
  have hnext := toNat_add_one (a := L) (by omega)
  have hprev := toNat_sub_one hL0
  rcases h with ⟨hle, hlt⟩ | ⟨-, hlt, hle⟩
  · refine .inl ⟨?_, ?_⟩
    · rw [hscale hlow.le (by omega)]
      exact mul_le_mul_of_nonneg_left hle hpow.le
    · rw [← raiseExponent_add_one, hscale (by omega) (by omega)]
      exact mul_lt_mul_of_pos_left hlt hpow
  · refine .inr ⟨?_, ?_, ?_⟩
    · intro hzero
      have hn := toNat_raiseExponent (k := k) (a := L) (by omega)
      rw [hzero, show (0 : F64).toNat = 0 from rfl] at hn
      omega
    · rw [← raiseExponent_sub_one, hscale (by omega) (by omega)]
      exact mul_lt_mul_of_pos_left hlt hpow
    · rw [hscale hlow.le (by omega)]
      exact mul_le_mul_of_nonneg_left hle hpow.le

/-! ### The words around `ln(2^18)` (rule R89) -/

theorem f64Value_lnMaxBelow : f64Value 0x4028F40B5ED9812C = 0x18F40B5ED9812C / 2 ^ 49 :=
  (f64Value_of_fields (sig := 0x18F40B5ED9812C) (k := 49) (by decide) (by decide)).trans (by norm_num)

theorem f64Value_lnMax : f64Value 0x4028F40B5ED9812D = 0x18F40B5ED9812D / 2 ^ 49 :=
  (f64Value_of_fields (sig := 0x18F40B5ED9812D) (k := 49) (by decide) (by decide)).trans (by norm_num)

theorem f64Value_lnMaxAbove : f64Value 0x4028F40B5ED9812E = 0x18F40B5ED9812E / 2 ^ 49 :=
  (f64Value_of_fields (sig := 0x18F40B5ED9812E) (k := 49) (by decide) (by decide)).trans (by norm_num)

theorem lnDomain_twoPow18 : lnDomain f64TwoPow18 = true := by decide

theorem value_le_twoPow18 {a : F64} (hd : lnDomain a = true) : f64Value a ≤ f64Value f64TwoPow18 := by
  have hbounds := lnDomain_iff.1 hd
  exact (f64Value_le_iff (by omega) (by decide)).2 hbounds.2

/-- A real number between the two midpoints around the word `w` rounds to `w`. -/
theorem RoundsTo.eq_of_midpoints {x : ℝ} {L w : F64} (h : RoundsTo x L) (hmax : w.toNat < f64Max) (hw0 : w ≠ 0)
    (hlow : (f64Value (w - 1) : ℝ) + f64Value w < 2 * x) (hhigh : 2 * x < f64Value w + (f64Value (w + 1) : ℝ)) :
    L = w := by
  have hw : f64Proper w = true := f64Proper_iff.2 (by unfold f64Max at hmax; omega)
  obtain ⟨hnextProper, hnext⟩ := add_one_spec hmax
  obtain ⟨hprevProper, -⟩ := sub_one_spec hw hw0
  have hprev := toNat_sub_one hw0
  rcases lt_trichotomy (f64Value L) (f64Value w) with hlt | heq | hgt
  · have hword := (value_lt_iff_of_proper h.1 hw).1 hlt
    have hle := (Rat.cast_le (K := ℝ)).2 ((value_le_iff_of_proper h.1 hprevProper).2 (by omega))
    have hmid := h.le_midpoint hw hlt
    linarith
  · exact f64Value_inj h.1 hw heq
  · have hword := (value_lt_iff_of_proper hw h.1).1 hgt
    have hle := (Rat.cast_le (K := ℝ)).2 ((value_le_iff_of_proper hnextProper h.1).2 (by omega))
    have hmid := h.midpoint_le hw hgt
    linarith

/-! ### The correctly rounded unit (rule R85) -/

section
variable {ln : F64 → F64} (h : LnCorrectlyRounded ln)
include h

theorem LnCorrectlyRounded.lnOne : LnOne ln := by
  have hround := h f64One (by decide)
  rw [f64Value_f64One, Rat.cast_one, Real.log_one] at hround
  exact hround.eq_of_value (v := 0) (by decide) (by rw [f64Value_zero, Rat.cast_zero])

theorem LnCorrectlyRounded.lnPos : LnPos ln := by
  intro a hd h1
  refine (h a hd).posNormal (v := 0x3CA0000000000000) (by decide) ?_
  rw [f64Value_twoPowNeg53]
  push_cast
  exact (log_bounds_of_domain hd h1).1

theorem LnCorrectlyRounded.lnMono : LnMono ln := by
  intro a b hda hdb hab
  have hpos : (0 : ℝ) < f64Value a := lt_of_lt_of_le one_pos (one_le_real_of_domain hda)
  exact (h a hda).mono (h b hdb) (Real.log_le_log hpos (Rat.cast_le.2 hab))

theorem LnCorrectlyRounded.twoPow18 : ln f64TwoPow18 = 0x4028F40B5ED9812D := by
  have hround := h f64TwoPow18 lnDomain_twoPow18
  have ⟨hlow, hhigh⟩ := log_twoPow18_bounds
  rw [f64Value_f64TwoPow18] at hround
  push_cast at hround
  refine hround.eq_of_midpoints (by decide) (by decide) ?_ ?_
  · rw [show (0x4028F40B5ED9812D - 1 : F64) = 0x4028F40B5ED9812C by decide, f64Value_lnMaxBelow, f64Value_lnMax]
    refine lt_trans ?_ (mul_lt_mul_of_pos_left hlow two_pos)
    norm_num
  · rw [show (0x4028F40B5ED9812D + 1 : F64) = 0x4028F40B5ED9812E by decide, f64Value_lnMaxAbove, f64Value_lnMax]
    refine lt_trans (mul_lt_mul_of_pos_left hhigh two_pos) ?_
    norm_num

theorem LnCorrectlyRounded.toNat_le {a : F64} (hd : lnDomain a = true) : (ln a).toNat ≤ 0x4028F40B5ED9812D := by
  have hle := h.lnMono a f64TwoPow18 hd lnDomain_twoPow18 (value_le_twoPow18 hd)
  rw [h.twoPow18, value_le_iff_of_proper (h a hd).1 (by decide)] at hle
  exact hle

theorem LnCorrectlyRounded.lnFaithful : LnFaithful ln := by
  intro a hd _
  have hmax := h.toNat_le hd
  exact ⟨(h a hd).1, (h a hd).faithful (Real.log_nonneg (one_le_real_of_domain hd)) (by unfold f64Max; omega)⟩

end

/-- Settles O57: rounding keeps the order and the words, and one real number rounds to one word. -/
theorem correctlyRoundedUnitIsLegal : Obligations.CorrectlyRoundedUnitIsLegal := fun _ h =>
  ⟨h.lnOne, h.lnPos, h.lnMono, h.lnFaithful, h.twoPow18, fun _ hd => h.toNat_le hd,
    fun _ h' a hd => (h' a hd).unique (h a hd)⟩

end Sys2Proof.Machine
end

section
/-! PROOFS. The quotient and the small-range value of `EST` (42_estimate rules R84, R85, R89). -/

namespace Sys2Proof.Machine

/-! ### The quotient `Q` (rule R84) -/

theorem f64Value_oneAndTwoPowNeg18 : f64Value 0x3FF0000400000000 = 1 + 1 / 2 ^ 18 :=
  (f64Value_of_fields (sig := 0x10000400000000) (k := 52) (by decide) (by decide)).trans (by norm_num)

theorem toNat_pos_iff {n : Nat} {v : BitVec n} : 0 < v.toNat ↔ v ≠ 0 := by
  rw [Nat.pos_iff_ne_zero, ne_eq, ne_eq, BitVec.toNat_eq, BitVec.ofNat_eq_ofNat, BitVec.toNat_ofNat, Nat.zero_mod]

theorem ne_zero_of_full {n k : Nat} {v : BitVec n} (hfull : v.toNat = 2 ^ k) : v ≠ 0 :=
  toNat_pos_iff.1 (hfull ▸ Nat.two_pow_pos k)

theorem two_pow_le_of_precision {p : BitVec 5} (hp : p.toNat ≤ 18) : (2 : ℚ) ^ p.toNat ≤ 2 ^ 18 :=
  pow_le_pow_right₀ one_le_two hp

/-- The word of a positive count. -/
theorem f64OfNat_vcnt {v : BitVec 19} (hv : v ≠ 0) :
    f64PosNormal (f64OfNat v.toNat) = true ∧ f64Value (f64OfNat v.toNat) = v.toNat :=
  f64OfNat_exact (toNat_pos_iff.2 hv) (by omega)

section
variable {p : BitVec 5} (hp : p.toNat ≤ 18) {v : BitVec 19} (hv : v ≠ 0) (hle : v.toNat ≤ 2 ^ p.toNat)
include hv hle

/-- The exact quotient is between 1 and `m`. -/
theorem quotient_bounds : (1 : ℚ) ≤ 2 ^ p.toNat / v.toNat ∧ (2 : ℚ) ^ p.toNat / v.toNat ≤ 2 ^ p.toNat := by
  have hpos : (0 : ℚ) < v.toNat := by exact_mod_cast toNat_pos_iff.2 hv
  have hone : (1 : ℚ) ≤ v.toNat := by exact_mod_cast toNat_pos_iff.2 hv
  exact ⟨(one_le_div hpos).2 (by exact_mod_cast hle), div_le_self (by positivity) hone⟩

include hp

theorem roundsTo_quotientQ : RoundsTo ((2 ^ p.toNat / v.toNat : ℚ) : ℝ) (quotientQ p v) := by
  obtain ⟨hnormal, hval⟩ := f64OfNat_vcnt hv
  obtain ⟨hlow, hhigh⟩ := quotient_bounds hv hle
  have hrange : NormalRange ((2 : ℚ) ^ p.toNat / v.toNat) :=
    normalRange_of_bounds (le_trans (by norm_num) hlow)
      (hhigh.trans ((two_pow_le_of_precision hp).trans (by norm_num)))
  rw [← (f64M_exact p).2, ← hval] at hrange ⊢
  exact roundsTo_fdiv (f64M_proper p) (f64Proper_of_posNormal hnormal)
    (by rw [hval]; exact_mod_cast toNat_pos_iff.2 hv) hrange

theorem quotientQ_bounds :
    f64PosNormal (quotientQ p v) = true ∧ 1 ≤ f64Value (quotientQ p v) ∧ f64Value (quotientQ p v) ≤ 2 ^ p.toNat := by
  have hround := roundsTo_quotientQ hp hv hle
  obtain ⟨hlow, hhigh⟩ := quotient_bounds hv hle
  obtain ⟨hnormal, hge⟩ := hround.two_zpow_le (e := 0) (by decide) (by decide) (by rwa [zpow_zero])
  exact ⟨hnormal, by rwa [zpow_zero] at hge,
    by simpa using hround.le_two_zpow (e := p.toNat) (by omega) (by omega) (by simpa using hhigh)⟩

theorem lnDomain_quotientQ : lnDomain (quotientQ p v) = true := by
  obtain ⟨hnormal, hge, hhigh⟩ := quotientQ_bounds hp hv hle
  have hproper := f64Proper_of_posNormal hnormal
  have htop := hhigh.trans (two_pow_le_of_precision hp)
  rw [← f64Value_f64One, value_le_iff_of_proper (by decide) hproper] at hge
  rw [← f64Value_f64TwoPow18, value_le_iff_of_proper hproper (by decide)] at htop
  exact lnDomain_iff.2 ⟨hge, htop⟩

/-- With every cell 0, `Q` is 1.0 (rule R90). -/
theorem quotientQ_of_full (hfull : v.toNat = 2 ^ p.toNat) : quotientQ p v = f64One := by
  refine (roundsTo_quotientQ hp hv hle).eq_of_value (by decide) (congrArg _ ?_)
  rw [f64Value_f64One, hfull, Nat.cast_pow, Nat.cast_two, div_self (by positivity)]

/-- With a cell that is not 0, `Q` is at least `m / (m - 1)`, and so above `1 + 2^-18` (rule R89). -/
theorem quotientQ_ge_of_lt (hlt : v.toNat < 2 ^ p.toNat) : 1 + 1 / 2 ^ 18 ≤ f64Value (quotientQ p v) := by
  have hround := roundsTo_quotientQ hp hv hle
  rw [← f64Value_oneAndTwoPowNeg18]
  refine hround.value_ge (by decide) (Rat.cast_le.2 ?_)
  have hpos : (0 : ℚ) < v.toNat := by exact_mod_cast toNat_pos_iff.2 hv
  have hsucc : (v.toNat : ℚ) + 1 ≤ 2 ^ p.toNat := by exact_mod_cast hlt
  have htop := two_pow_le_of_precision hp
  rw [f64Value_oneAndTwoPowNeg18, le_div_iff₀ hpos, add_mul, one_mul]
  have : 1 / 2 ^ 18 * (v.toNat : ℚ) ≤ 1 := by
    rw [one_div_mul_eq_div, div_le_one (by positivity)]
    linarith
  linarith

theorem quotientQ_eq_one_iff : quotientQ p v = f64One ↔ v.toNat = 2 ^ p.toNat := by
  refine ⟨fun hone => ?_, quotientQ_of_full hp hv hle⟩
  by_contra hne
  have hge := quotientQ_ge_of_lt hp hv hle (by omega)
  rw [hone, f64Value_f64One] at hge
  norm_num at hge

end

/-! ### The small-range value (rules R84, R85, R89) -/

theorem f64Value_twoPowNeg19 : f64Value 0x3EC0000000000000 = 1 / 2 ^ 19 :=
  (f64Value_of_fields (sig := 2 ^ 52) (k := 71) (by decide) (by decide)).trans (by norm_num)

/-- The logarithm of a `Q` above 1.0 is at least `2^-19`. -/
theorem log_ge_of_value_ge {x : ℚ} (hx : 1 + 1 / 2 ^ 18 ≤ x) : 1 / 2 ^ 19 ≤ Real.log x := by
  have hx' : (1 : ℝ) + 1 / 2 ^ 18 ≤ x := by
    have := (Rat.cast_le (K := ℝ)).2 hx
    push_cast at this
    exact this
  have hpos : (0 : ℝ) < x := lt_of_lt_of_le (by positivity) hx'
  have hinv : (x : ℝ)⁻¹ ≤ (1 + 1 / 2 ^ 18)⁻¹ := inv_anti₀ (by positivity) hx'
  have hlog := Real.one_sub_inv_le_log_of_pos hpos
  have hnum : 1 / (2 : ℝ) ^ 19 ≤ 1 - (1 + 1 / 2 ^ 18)⁻¹ := by norm_num
  linarith

/-- Every logarithm of the domain is below the word above `f64(ln(2^18))`. -/
theorem log_le_lnMaxAbove {a : F64} (hd : lnDomain a = true) :
    Real.log (f64Value a) ≤ (f64Value 0x4028F40B5ED9812E : ℝ) := by
  have hle : Real.log (f64Value a) ≤ Real.log (2 ^ 18) :=
    Real.log_le_log (lt_of_lt_of_le one_pos (one_le_real_of_domain hd)) (value_le_of_domain hd)
  refine (hle.trans log_twoPow18_bounds.2.le).trans ?_
  rw [f64Value_lnMaxAbove]
  norm_num

section
variable {ln : F64 → F64} (h1 : LnOne ln) (hpos : LnPos ln) (hfaithful : LnFaithful ln)

section
variable {a : F64} (hd : lnDomain a = true) (hge : 1 + 1 / 2 ^ 18 ≤ f64Value a)
include hd hge

theorem ne_one_of_value_ge : a ≠ f64One := by
  rintro rfl
  rw [f64Value_f64One] at hge
  norm_num at hge

include hfaithful

/-- A faithful logarithm of a `Q` above 1.0 lies between `2^-19` and the word above `f64(ln(2^18))`. -/
theorem ln_toNat_bounds : 0x3EC0000000000000 ≤ (ln a).toNat ∧ (ln a).toNat ≤ 0x4028F40B5ED9812E := by
  obtain ⟨hproper, hL⟩ := hfaithful a hd (ne_one_of_value_ge hd hge)
  have hlow : f64Value 0x3EC0000000000000 ≤ f64Value (ln a) := by
    refine hL.value_ge hproper (by decide) ?_
    rw [f64Value_twoPowNeg19]
    push_cast
    exact log_ge_of_value_ge hge
  have hhigh := hL.value_le hproper (v := 0x4028F40B5ED9812E) (by decide) (log_le_lnMaxAbove hd)
  rw [value_le_iff_of_proper (by decide) hproper] at hlow
  rw [value_le_iff_of_proper hproper (by decide)] at hhigh
  exact ⟨hlow, hhigh⟩

theorem ln_value_bounds : 1 / 2 ^ 19 ≤ f64Value (ln a) ∧ f64Value (ln a) ≤ 25 / 2 := by
  obtain ⟨hlow, hhigh⟩ := ln_toNat_bounds hfaithful hd hge
  have hproper := (hfaithful a hd (ne_one_of_value_ge hd hge)).1
  rw [← f64Value_twoPowNeg19, value_le_iff_of_proper (by decide) hproper]
  refine ⟨hlow, le_trans (b := f64Value 0x4028F40B5ED9812E) ?_ ?_⟩
  · exact (value_le_iff_of_proper hproper (by decide)).2 hhigh
  · rw [f64Value_lnMaxAbove]
    norm_num

end

section
variable {p : BitVec 5} (hp : p.toNat ≤ 18) {v : BitVec 19} (hv : v ≠ 0) (hle : v.toNat ≤ 2 ^ p.toNat)
include hp hv hle

include h1 in
theorem smallRange_of_full (hfull : v.toNat = 2 ^ p.toNat) : ln (quotientQ p v) = 0 ∧ smallRange ln p v = 0 := by
  have hzero : ln (quotientQ p v) = 0 := by rw [quotientQ_of_full hp hv hle hfull, h1]
  exact ⟨hzero, by rw [smallRange, hzero, fmul_zero (f64M_proper p)]⟩

include hpos hfaithful in
/-- The product `m * L` is exact. -/
theorem smallRange_of_lt (hlt : v.toNat < 2 ^ p.toNat) :
    smallRange ln p v = raiseExponent p.toNat (ln (quotientQ p v)) ∧ f64PosNormal (smallRange ln p v) = true ∧
      f64Value (smallRange ln p v) = f64Value (ln (quotientQ p v)) * 2 ^ p.toNat := by
  have hd := lnDomain_quotientQ hp hv hle
  have hge := quotientQ_ge_of_lt hp hv hle hlt
  have hnormal := hpos _ hd (ne_one_of_value_ge hd hge)
  obtain ⟨-, hhigh⟩ := ln_toNat_bounds hfaithful hd hge
  rw [smallRange, fmul_f64M_left hnormal (by omega)]
  exact ⟨rfl, f64PosNormal_raiseExponent hnormal (by omega), f64Value_raiseExponent hnormal (by omega)⟩

include h1 hpos hfaithful in
theorem f64Value_smallRange : f64Value (smallRange ln p v) = f64Value (ln (quotientQ p v)) * 2 ^ p.toNat := by
  rcases hle.lt_or_eq with hlt | hfull
  · exact (smallRange_of_lt hpos hfaithful hp hv hle hlt).2.2
  · obtain ⟨hzero, hsmall⟩ := smallRange_of_full h1 hp hv hle hfull
    rw [hsmall, hzero, f64Value_zero, zero_mul]

include hpos hfaithful in
theorem smallRange_le (hlt : v.toNat < 2 ^ p.toNat) : f64Value (smallRange ln p v) ≤ 25 / 2 * 2 ^ 18 := by
  have hbound := (ln_value_bounds hfaithful (lnDomain_quotientQ hp hv hle) (quotientQ_ge_of_lt hp hv hle hlt)).2
  rw [(smallRange_of_lt hpos hfaithful hp hv hle hlt).2.2]
  exact mul_le_mul hbound (two_pow_le_of_precision hp) (by positivity) (by norm_num)

end

end

/-- Settles O43: fewer zero cells give a greater quotient, and the logarithm and the exact product keep the order. -/
theorem smallRangeRisesAsZerosFall : Obligations.SmallRangeRisesAsZerosFall := by
  intro ln h1 hpos hmono hfaithful p v v' _ hp hv hvv' hle'
  have hne : v ≠ 0 := toNat_pos_iff.1 hv
  have hne' : v' ≠ 0 := toNat_pos_iff.1 (hv.trans_le hvv')
  have hle := hvv'.trans hle'
  have hquotient : (2 : ℚ) ^ p.toNat / v'.toNat ≤ 2 ^ p.toNat / v.toNat :=
    div_le_div_of_nonneg_left (by positivity) (by exact_mod_cast hv) (by exact_mod_cast hvv')
  have hQ := (roundsTo_quotientQ hp hne' hle').mono (roundsTo_quotientQ hp hne hle) (Rat.cast_le.2 hquotient)
  rw [f64Value_smallRange h1 hpos hfaithful hp hne' hle', f64Value_smallRange h1 hpos hfaithful hp hne hle]
  gcongr
  exact hmono _ _ (lnDomain_quotientQ hp hne' hle') (lnDomain_quotientQ hp hne hle) hQ

end Sys2Proof.Machine
end

section
/-! PROOFS. The raw estimate, the selection and the responses of `EST` (42_estimate rules R77 to R90). -/

namespace Sys2Proof.Machine

/-! ### The raw estimate `E` (rules R77, R82, R89) -/

theorem alphaLut_value_bounds {p : BitVec 5} (hlow : 4 ≤ p.toNat) (hhigh : p.toNat ≤ 18) :
    1 / 2 ≤ f64Value (alphaLut p) ∧ f64Value (alphaLut p) < 1 := by
  obtain ⟨hge, hlt⟩ := alphaLut_toNat_bounds hlow hhigh
  have hproper := f64Proper_of_posNormal (alphaLut_posNormal hlow hhigh)
  have hhalf : f64Value 0x3FE0000000000000 = 1 / 2 :=
    (f64Value_of_fields (sig := 2 ^ 52) (k := 53) (by decide) (by decide)).trans (by norm_num)
  rw [← hhalf, ← f64Value_f64One, value_le_iff_of_proper (by decide) hproper,
    value_lt_iff_of_proper hproper (by decide)]
  exact ⟨hge, hlt⟩

theorem alphaLut_four : f64Value (alphaLut 4) = 0x1589374BC6A7F0 / 2 ^ 53 := by
  rw [show alphaLut 4 = 0x3FE589374BC6A7F0 by decide]
  exact (f64Value_of_fields (sig := 0x1589374BC6A7F0) (k := 53) (by decide) (by decide)).trans (by norm_num)

/-- The least raw estimate, `alpha * m`, is least at precision 4. -/
theorem alphaLut_mul_ge {p : BitVec 5} (hlow : 4 ≤ p.toNat) (hhigh : p.toNat ≤ 18) :
    10768 / 1000 ≤ f64Value (alphaLut p) * 2 ^ p.toNat := by
  rcases hlow.eq_or_lt with hfour | hfive
  · obtain rfl : p = 4 := BitVec.eq_of_toNat_eq hfour.symm
    rw [alphaLut_four, show (4 : BitVec 5).toNat = 4 from rfl]
    norm_num
  · have hhalf := (alphaLut_value_bounds hlow hhigh).1
    have hpow : (2 : ℚ) ^ 5 ≤ 2 ^ p.toNat := pow_le_pow_right₀ one_le_two hfive
    calc (10768 / 1000 : ℚ) ≤ 1 / 2 * 2 ^ 5 := by norm_num
      _ ≤ f64Value (alphaLut p) * 2 ^ p.toNat := mul_le_mul hhalf hpow (by positivity) (by linarith)

/-- What a scan leaves in the registers of a reachable state (rules R74, R76). -/
structure ScanRange (p : BitVec 5) (acc : BitVec 79) (vcnt : BitVec 19) : Prop where
  precision_ge : 4 ≤ p.toNat
  precision_le : p.toNat ≤ 18
  acc_ge : 2 ^ (2 * p.toNat - 4) ≤ acc.toNat
  acc_le : acc.toNat ≤ 2 ^ (p.toNat + 60)
  vcnt_le : vcnt.toNat ≤ 2 ^ p.toNat
  acc_of_full : vcnt.toNat = 2 ^ p.toNat → acc.toNat = 2 ^ (p.toNat + 60)

theorem scanRange_of_inv {s : State} (hinv : s.inv = true) (hv : s.valid = true) :
    ScanRange s.p (scanAcc s.p s.regs) (scanVcnt s.p s.regs) := by
  obtain ⟨-, hlow, hhigh, -⟩ := (inv_iff_of_valid hv).1 hinv
  obtain ⟨hle, hleEq⟩ := scanAcc_le hinv hv
  obtain ⟨hvcnt, hvcntEq⟩ := scanVcnt_le hinv hv
  exact ⟨hlow, hhigh, (scanAcc_ge hinv hv).1, hle, hvcnt, fun hfull => hleEq.2 (hvcntEq.1 hfull)⟩

section
variable {p : BitVec 5} (hlow : 4 ≤ p.toNat) (hhigh : p.toNat ≤ 18)
include hlow hhigh

theorem raiseExponent_alphaLut {k : Nat} (hk : k ≤ 64) :
    f64PosNormal (raiseExponent k (alphaLut p)) = true ∧
      f64Value (raiseExponent k (alphaLut p)) = f64Value (alphaLut p) * 2 ^ k := by
  have hbounds := alphaLut_toNat_bounds hlow hhigh
  have hnormal := alphaLut_posNormal hlow hhigh
  exact ⟨f64PosNormal_raiseExponent hnormal (by omega), f64Value_raiseExponent hnormal (by omega)⟩

theorem numeratorN_exact :
    f64PosNormal (numeratorN p) = true ∧ f64Value (numeratorN p) = f64Value (alphaLut p) * 2 ^ (2 * p.toNat) := by
  rw [numeratorN_eq hlow hhigh]
  exact raiseExponent_alphaLut hlow hhigh (by omega)

theorem fmul_alphaLut_f64M_exact : f64PosNormal (fmul (alphaLut p) (f64M p)) = true ∧
    f64Value (fmul (alphaLut p) (f64M p)) = f64Value (alphaLut p) * 2 ^ p.toNat := by
  rw [fmul_alphaLut_f64M hlow hhigh]
  exact raiseExponent_alphaLut hlow hhigh (by omega)

theorem numeratorN_bounds :
    1 / 2 * 2 ^ (2 * p.toNat) ≤ f64Value (numeratorN p) ∧ f64Value (numeratorN p) < 2 ^ (2 * p.toNat) := by
  obtain ⟨hge, hlt⟩ := alphaLut_value_bounds hlow hhigh
  have hpow : (0 : ℚ) < 2 ^ (2 * p.toNat) := by positivity
  rw [(numeratorN_exact hlow hhigh).2]
  exact ⟨mul_le_mul_of_nonneg_right hge hpow.le, mul_lt_of_lt_one_left hpow hlt⟩

theorem thresholdT_bounds : 40 ≤ f64Value (thresholdT p) ∧ f64Value (thresholdT p) ≤ 655360 := by
  have hleast : (2 : ℚ) ^ 4 ≤ 2 ^ p.toNat := pow_le_pow_right₀ one_le_two hlow
  have hgreatest := two_pow_le_of_precision hhigh
  rw [(thresholdT_exact p).2]
  exact ⟨by linarith, by linarith⟩

theorem cvt_of_full : cvt (2 ^ (p.toNat + 60)) = f64M p := by
  rw [cvt_eq_f64Of (Nat.two_pow_pos _) (Nat.pow_lt_pow_right one_lt_two (by omega))]
  refine f64Of_eq_of_value (Nat.two_pow_pos _) (Nat.two_pow_pos _) (f64M_exact p).1 ?_
  rw [(f64M_exact p).2, pow_add 2 p.toNat 60, Nat.cast_mul, mul_div_assoc, div_self (by positivity), mul_one,
    Nat.cast_pow, Nat.cast_two]

end

namespace ScanRange

variable {p : BitVec 5} {acc : BitVec 79} {vcnt : BitVec 19} (h : ScanRange p acc vcnt)
include h

theorem cvt_spec :
    f64PosNormal (cvt acc.toNat) = true ∧ (2 : ℚ) ^ (2 * (p.toNat : ℤ) - 64) ≤ f64Value (cvt acc.toNat) ∧
      f64Value (cvt acc.toNat) ≤ 2 ^ p.toNat := by
  have hhigh := h.precision_le
  have hlow := h.precision_ge
  obtain ⟨hnormal, hge, hle⟩ := cvt_bounds acc.isLt (by omega) h.acc_ge h.acc_le
  refine ⟨hnormal, le_of_eq_of_le ?_ hge, hle.trans_eq ?_⟩
  · congr 1
    omega
  · rw [Nat.cast_add, Nat.cast_ofNat, add_sub_cancel_right, zpow_natCast]

/-- The exact quotient `N / Zf`. -/
theorem raw_bounds :
    f64Value (alphaLut p) * 2 ^ p.toNat ≤ f64Value (numeratorN p) / f64Value (cvt acc.toNat) ∧
      f64Value (numeratorN p) / f64Value (cvt acc.toNat) ≤ f64Value (alphaLut p) * 2 ^ 64 := by
  obtain ⟨-, hge, hle⟩ := h.cvt_spec
  have hZpos : 0 < f64Value (cvt acc.toNat) := lt_of_lt_of_le (by positivity) hge
  have halpha := (f64Value_nonneg (alphaLut p))
  rw [(numeratorN_exact h.precision_ge h.precision_le).2, le_div_iff₀ hZpos, div_le_iff₀ hZpos, mul_assoc, mul_assoc]
  constructor
  · rw [two_mul, pow_add]
    gcongr
  · gcongr
    calc (2 : ℚ) ^ (2 * p.toNat) = 2 ^ 64 * 2 ^ (2 * (p.toNat : ℤ) - 64) := by
          rw [← zpow_natCast, ← zpow_natCast, ← zpow_add₀ two_ne_zero]
          congr 1
          push_cast
          ring
      _ ≤ 2 ^ 64 * f64Value (cvt acc.toNat) := by gcongr

theorem rawEstimate_spec :
    f64PosNormal (rawEstimate p acc) = true ∧ f64Value (alphaLut p) * 2 ^ p.toNat ≤ f64Value (rawEstimate p acc) ∧
      f64Value (rawEstimate p acc) ≤ f64Value (alphaLut p) * 2 ^ 64 := by
  have hp := h.precision_le
  obtain ⟨hlowNormal, hlowVal⟩ := raiseExponent_alphaLut h.precision_ge hp (k := p.toNat) (by omega)
  obtain ⟨hhighNormal, hhighVal⟩ := raiseExponent_alphaLut h.precision_ge hp (k := 64) le_rfl
  obtain ⟨hNnormal, -⟩ := numeratorN_exact h.precision_ge hp
  obtain ⟨hZnormal, hZge, -⟩ := h.cvt_spec
  obtain ⟨hge, hle⟩ := h.raw_bounds
  rw [← hlowVal] at hge ⊢
  rw [← hhighVal] at hle ⊢
  have hround := roundsTo_fdiv (f64Proper_of_posNormal hNnormal) (f64Proper_of_posNormal hZnormal)
    (lt_of_lt_of_le (by positivity) hZge)
    ⟨(normalRange_value hlowNormal).1.trans hge, hle.trans (normalRange_value hhighNormal).2⟩
  exact ⟨hround.posNormal hlowNormal (Rat.cast_le.2 hge),
    hround.value_ge (f64Proper_of_posNormal hlowNormal) (Rat.cast_le.2 hge),
    hround.value_le (f64Proper_of_posNormal hhighNormal) (Rat.cast_le.2 hle)⟩

theorem rawEstimate_lt : f64Value (rawEstimate p acc) < 2 ^ 64 := by
  obtain ⟨-, -, hle⟩ := h.rawEstimate_spec
  have halpha := (alphaLut_value_bounds h.precision_ge h.precision_le).2
  linarith

/-! ### The selection (rules R83, R88) -/

theorem takesSmallRange_iff :
    takesSmallRange p acc vcnt = true ↔ f64Value (rawEstimate p acc) ≤ 5 / 2 * 2 ^ p.toNat ∧ vcnt ≠ 0 := by
  obtain ⟨hTnormal, hT⟩ := thresholdT_exact p
  rw [takesSmallRange, Bool.and_eq_true,
    fle_iff_value (f64Proper_of_posNormal h.rawEstimate_spec.1) (f64Proper_of_posNormal hTnormal), hT,
    decide_eq_true_iff]

/-! ### Every cell 0 (rule R90) -/

section
variable (hfull : vcnt.toNat = 2 ^ p.toNat)
include hfull

theorem cvt_eq_of_full : cvt acc.toNat = f64M p := by
  rw [h.acc_of_full hfull, cvt_of_full h.precision_ge h.precision_le]

theorem rawEstimate_of_full : rawEstimate p acc = raiseExponent p.toNat (alphaLut p) := by
  have hp := h.precision_le
  obtain ⟨hnormal, hval⟩ := raiseExponent_alphaLut h.precision_ge hp (k := p.toNat) (by omega)
  obtain ⟨hNnormal, hN⟩ := numeratorN_exact h.precision_ge hp
  rw [rawEstimate, h.cvt_eq_of_full hfull]
  refine fdiv_eq_of_value (f64Proper_of_posNormal hNnormal) (f64M_proper p) ?_ hnormal ?_
  · rw [(f64M_exact p).2]
    positivity
  · rw [hval, hN, (f64M_exact p).2, two_mul, pow_add, ← mul_assoc, mul_div_cancel_right₀ _ (by positivity)]

theorem rawEstimate_lt_threshold : f64Value (rawEstimate p acc) < f64Value (thresholdT p) := by
  have hp := h.precision_le
  have halpha := (alphaLut_value_bounds h.precision_ge hp).2
  rw [h.rawEstimate_of_full hfull, (raiseExponent_alphaLut h.precision_ge hp (k := p.toNat) (by omega)).2,
    (thresholdT_exact p).2]
  gcongr
  linarith

theorem estimateWord_of_full {ln : F64 → F64} (h1 : LnOne ln) : estimateWord ln p acc vcnt = 0 := by
  have hne := ne_zero_of_full hfull
  have hsmall := h.takesSmallRange_iff.2
    ⟨(h.rawEstimate_lt_threshold hfull).le.trans_eq (thresholdT_exact p).2, hne⟩
  rw [estimateWord, if_pos hsmall]
  exact (smallRange_of_full h1 h.precision_le hne h.vcnt_le hfull).2

end

/-- With a cell that is not 0 the result is a positive normal number below `2^64`. -/
theorem estimateWord_of_lt {ln : F64 → F64} (hpos : LnPos ln) (hfaithful : LnFaithful ln)
    (hlt : vcnt.toNat < 2 ^ p.toNat) :
    f64PosNormal (estimateWord ln p acc vcnt) = true ∧ f64Value (estimateWord ln p acc vcnt) < 2 ^ 64 := by
  rw [estimateWord]
  split
  · next hsmall =>
    obtain ⟨-, hne⟩ := h.takesSmallRange_iff.1 hsmall
    refine ⟨(smallRange_of_lt hpos hfaithful h.precision_le hne h.vcnt_le hlt).2.1, ?_⟩
    exact (smallRange_le hpos hfaithful h.precision_le hne h.vcnt_le hlt).trans_lt (by norm_num)
  · exact ⟨h.rawEstimate_spec.1, h.rawEstimate_lt⟩

/-- The result is finite, and `+0.0` exactly when every cell is 0 (rules R86, R89, R90). -/
theorem estimateWord_spec {ln : F64 → F64} (h1 : LnOne ln) (hpos : LnPos ln) (hfaithful : LnFaithful ln) :
    f64Proper (estimateWord ln p acc vcnt) = true ∧ f64Value (estimateWord ln p acc vcnt) < 2 ^ 64 ∧
      (estimateWord ln p acc vcnt = 0 ↔ vcnt.toNat = 2 ^ p.toNat) ∧
      (estimateWord ln p acc vcnt ≠ 0 → f64PosNormal (estimateWord ln p acc vcnt) = true) := by
  rcases h.vcnt_le.lt_or_eq with hlt | hfull
  · obtain ⟨hnormal, hbound⟩ := h.estimateWord_of_lt hpos hfaithful hlt
    refine ⟨f64Proper_of_posNormal hnormal, hbound, iff_of_false ?_ hlt.ne, fun _ => hnormal⟩
    intro hzero
    rw [hzero] at hnormal
    exact absurd hnormal (by decide)
  · rw [h.estimateWord_of_full hfull h1, f64Value_zero]
    exact ⟨by decide, by positivity, iff_of_true rfl hfull, fun hne => absurd rfl hne⟩

/-- The small-range value is faithful to `m * ln(Q)`: the product is exact and takes the words around `ln(Q)` to those
around `m * ln(Q)`. -/
theorem estimateWord_faithful {ln : F64 → F64} (hpos : LnPos ln) (hfaithful : LnFaithful ln) (hne : vcnt ≠ 0)
    (hlt : vcnt.toNat < 2 ^ p.toNat) (hE : f64Value (rawEstimate p acc) ≤ 5 / 2 * 2 ^ p.toNat) :
    FaithfulTo (2 ^ p.toNat * Real.log (f64Value (quotientQ p vcnt))) (estimateWord ln p acc vcnt) := by
  have hp := h.precision_le
  have hd := lnDomain_quotientQ hp hne h.vcnt_le
  have hge := quotientQ_ge_of_lt hp hne h.vcnt_le hlt
  obtain ⟨hlow, hhigh⟩ := ln_toNat_bounds hfaithful hd hge
  rw [estimateWord, if_pos (h.takesSmallRange_iff.2 ⟨hE, hne⟩),
    (smallRange_of_lt hpos hfaithful hp hne h.vcnt_le hlt).1]
  exact (hfaithful _ hd (ne_one_of_value_ge hd hge)).2.mul_two_pow (by omega) (by omega)

end ScanRange

/-! ### The responses of `EST` (rules R86 to R90) -/

/-- Settles O40: `fle` compares the values of `E` and `T`, and `T` is `2.5 m`. -/
theorem estSelectsByTheThreshold : Obligations.EstSelectsByTheThreshold := by
  intro s hinv hv
  have hiff := (scanRange_of_inv hinv hv).takesSmallRange_iff
  refine ⟨_, exec_est_of_valid hv, fun hsmall => ?_, fun hraw => ?_⟩
  · rw [estimateWord, if_pos (hiff.2 hsmall)]
    rfl
  · rw [estimateWord, if_neg (mt hiff.1 hraw)]
    rfl

/-- Settles O41: the new estimator has every cell 0, so `Zf = m`, `E = alpha * m` and `Q = 1.0`. -/
theorem zeroStateAnswersZero : Obligations.ZeroStateAnswersZero := by
  intro n s hlow hhigh
  have hn := precisionInRange_iff.2 ⟨hlow, hhigh⟩
  have hp : (construct n s).p.toNat = n.toNat := setWidth_toNat_of_inRange hn
  have hinv := inv_construct hn s
  have hrange := scanRange_of_inv hinv (construct_valid n s)
  have hzero : ∀ j, j < 2 ^ (construct n s).p.toNat → cellOf (construct n s) j = 0 := fun j _ =>
    cellOf_eq_cellAt hinv (construct_valid n s) j
  have hfull := (scanVcnt_le hinv (construct_valid n s)).2.2 hzero
  refine ⟨_, _, exec_init_of_inRange hn s, exec_est_of_valid (s := pushResponse (okWord 0) (construct n s)) rfl, ?_,
    hfull.trans (by rw [hp]), hrange.cvt_eq_of_full hfull, ?_, hrange.rawEstimate_lt_threshold hfull,
    quotientQ_of_full hrange.precision_le (ne_zero_of_full hfull) hrange.vcnt_le hfull, ?_⟩
  · rw [← pow_add, ← hp]
    exact hrange.acc_of_full hfull
  · rw [← hp]
    exact hrange.rawEstimate_of_full hfull
  · simp only [pushResponse_responses, scan_responses, construct_responses, pushResponse_p, pushResponse_regs]
    rw [hrange.estimateWord_of_full hfull ln64_one, List.append_assoc]
    rfl

/-- Settles O42: each operand and result in the order of the pseudocode, from the ranges of the two registers. -/
theorem estMeetsNoExceptionalCase : Obligations.EstMeetsNoExceptionalCase := by
  intro ln h1 hpos hfaithful s hinv hv
  have h := scanRange_of_inv hinv hv
  have hlow := h.precision_ge
  have hp := h.precision_le
  have hle := h.vcnt_le
  obtain ⟨hN, hNval⟩ := numeratorN_exact hlow hp
  obtain ⟨hE, hEge, hEle⟩ := h.rawEstimate_spec
  have hspec := h.estimateWord_spec h1 hpos hfaithful
  rw [(scanVcnt_le hinv hv).2] at hspec
  refine ⟨_, exec_est_of_valid hv, f64M_exact _, ⟨alphaLut_posNormal hlow hp, alphaLut_value_bounds hlow hp⟩,
    h.cvt_spec, fmul_alphaLut_f64M_exact hlow hp, ⟨hN, hNval, numeratorN_bounds hlow hp⟩,
    ⟨hE, alphaLut_mul_ge hlow hp, hEge, hEle, h.rawEstimate_lt⟩, ⟨(thresholdT_exact _).1, thresholdT_bounds hlow hp⟩,
    fun hne => ?_, fun hfull => smallRange_of_full h1 hp (ne_zero_of_full hfull) hle hfull, fun hne hlt => ?_, hspec⟩
  · obtain ⟨hQ, hQge, hQle⟩ := quotientQ_bounds hp hne hle
    exact ⟨f64OfNat_vcnt hne, ⟨hQ, lnDomain_quotientQ hp hne hle, hQge, hQle⟩, quotientQ_eq_one_iff hp hne hle⟩
  · have hd := lnDomain_quotientQ hp hne hle
    have hQge := quotientQ_ge_of_lt hp hne hle hlt
    obtain ⟨-, hR, hval⟩ := smallRange_of_lt hpos hfaithful hp hne hle hlt
    exact ⟨hQge, ⟨hpos _ hd (ne_one_of_value_ge hd hQge), (ln_value_bounds hfaithful hd hQge).1,
      (ln_toNat_bounds hfaithful hd hQge).2⟩, hR, hval, smallRange_le hpos hfaithful hp hne hle hlt⟩

/-- Settles O55: the block's own unit has the named properties. -/
theorem estAnswersAFiniteEstimate : Obligations.EstAnswersAFiniteEstimate := by
  intro s hinv hv
  have hspec := (scanRange_of_inv hinv hv).estimateWord_spec ln64_one ln64_pos ln64_faithful
  rw [(scanVcnt_le hinv hv).2] at hspec
  exact ⟨_, _, exec_est_of_valid hv, rfl, hspec⟩

/-- Settles O56: the small-range value is selected, and it is faithful. -/
theorem smallRangeResponseIsFaithful : Obligations.SmallRangeResponseIsFaithful := fun _ hinv hv =>
  ⟨_, _, exec_est_of_valid hv, rfl, (scanRange_of_inv hinv hv).estimateWord_faithful ln64_pos ln64_faithful⟩

end Sys2Proof.Machine
end

section
/-! PROOFS. Exceptions (60_exceptions). -/

namespace Sys2Proof.Machine

/-! ### Steps on a reserved word and on no move (rules R94, R104) -/

/-- Settles O7: the decoder rejects the word, and `{1, 2}` is the word of cause 2. -/
theorem stepAnswersAReservedWord : Obligations.StepAnswersAReservedWord := by
  intro s w rest hs hw
  obtain ⟨r, hr⟩ := (exists_reserved_iff w).2 hw
  rw [step_of_command hs, runWord_of_reserved hr]
  rfl

/-- Settles O9: the host has no next move to take. -/
theorem idleStepKeepsTheState : Obligations.IdleStepKeepsTheState := by
  intro s hs
  rw [step, nextMove, hs]
  rfl

/-! ### The cause a word raises (rules R92 to R97) -/

/-- The cause a command raises in the state `s`, if it raises one (rules R93, R95). -/
def commandCause (s : State) : Instr → Option Cause
  | .init n => if precisionInRange n then none else some .precisionOutOfRange
  | .obs _ => if s.valid then none else some .noEstimator
  | .est => if s.valid then none else some .noEstimator

/-- The cause a word raises in the state `s`, if it raises one: the decoder's check comes first (rules R94, R97). -/
def raisedCause (w : CmdWord) (s : State) : Option Cause :=
  match decode w with
  | .ok i => commandCause s i
  | .error _ => some .reservedEncoding

theorem raisedCause_of_command {w : CmdWord} {i : Instr} (h : decode w = .ok i) (s : State) :
    raisedCause w s = commandCause s i := by
  rw [raisedCause, h]

theorem raisedCause_of_reserved {w : CmdWord} {r : Reserved} (h : decode w = .error r) (s : State) :
    raisedCause w s = some .reservedEncoding := by
  rw [raisedCause, h]

/-- The word of a command is not reserved. -/
theorem not_reservedWord_encode (i : Instr) : ¬ ReservedWord (encode i) := by
  rw [← exists_reserved_iff, decode_encode]
  rintro ⟨r, hr⟩
  cases hr

/-- The checks in the order of rule R97, on the fields of the word. -/
theorem raisedCause_eq_firstFailedCheck (w : CmdWord) (s : State) :
    raisedCause w s =
      if ReservedWord w then some .reservedEncoding
      else if opField w = 0#2 then
        if precisionInRange (argField w) then none else some .precisionOutOfRange
      else if s.valid then none else some .noEstimator := by
  cases hw : decode w with
  | error r => rw [raisedCause_of_reserved hw, if_pos ((exists_reserved_iff w).1 ⟨r, hw⟩)]
  | ok i =>
    rw [raisedCause_of_command hw, decode_eq_ok_iff.1 hw, if_neg (not_reservedWord_encode i)]
    cases i <;> simp [commandCause, encode]

/-! ### What an answer says and changes (rules R97, R98) -/

/-- A command of the state `s` ends in `t` with the response `r`: where it raises a cause, the response is the word of
the cause and is all that changes; where it raises none, the response has `err = 0`. -/
inductive AnswerCase (s t : State) (r : RspWord) : Option Cause → Prop where
  | raised (c : Cause) (hr : r = causeWord c) (ht : t = pushResponse r s) : AnswerCase s t r (some c)
  | answered (hr : r.extractLsb 64 64 = 0#1) (ht : t.responses = s.responses ++ [r]) : AnswerCase s t r none

theorem AnswerCase.responses_eq {s t : State} {r : RspWord} {c : Option Cause} (h : AnswerCase s t r c) :
    t.responses = s.responses ++ [r] := by
  cases h with
  | raised c hr ht => rw [ht, pushResponse_responses]
  | answered hr ht => exact ht

theorem AnswerCase.eq_causeWord {s t : State} {r : RspWord} {c : Cause} (h : AnswerCase s t r (some c)) :
    r = causeWord c := by
  cases h with
  | raised _ hr ht => exact hr

theorem AnswerCase.err_eq_zero {s t : State} {r : RspWord} (h : AnswerCase s t r none) :
    r.extractLsb 64 64 = 0#1 := by
  cases h with
  | answered hr ht => exact hr

theorem answerCase_causeWord (c : Cause) (s : State) :
    AnswerCase s (pushResponse (causeWord c) s) (causeWord c) (some c) :=
  .raised c rfl rfl

theorem answerCase_okWord {s u : State} (d : BitVec 64) (hu : u.responses = s.responses) :
    AnswerCase s (pushResponse (okWord d) u) (okWord d) none :=
  .answered (extract_err 0 d) (by rw [pushResponse_responses, hu])

/-- Each command's check decides its answer. -/
theorem exec_answerCase (i : Instr) (s : State) :
    ∃ t r, exec i s = .next t ∧ AnswerCase s t r (commandCause s i) := by
  cases i with
  | init n =>
    cases hn : precisionInRange n with
    | true =>
      rw [commandCause, if_pos hn]
      exact ⟨_, _, exec_init_of_inRange hn s, answerCase_okWord 0 rfl⟩
    | false =>
      rw [commandCause, if_neg (ne_true_of_eq_false hn)]
      exact ⟨_, _, exec_init_of_outOfRange hn s, answerCase_causeWord _ s⟩
  | obs h =>
    cases hv : s.valid with
    | true =>
      rw [commandCause, if_pos hv]
      exact ⟨_, _, exec_obs_of_valid hv h, answerCase_okWord 0 rfl⟩
    | false =>
      rw [commandCause, if_neg (ne_true_of_eq_false hv)]
      exact ⟨_, _, exec_obs_of_not_valid hv h, answerCase_causeWord _ s⟩
  | est =>
    cases hv : s.valid with
    | true =>
      rw [commandCause, if_pos hv]
      exact ⟨_, _, exec_est_of_valid hv, answerCase_okWord _ rfl⟩
    | false =>
      rw [commandCause, if_neg (ne_true_of_eq_false hv)]
      exact ⟨_, _, exec_est_of_not_valid hv, answerCase_causeWord _ s⟩

theorem runWord_answerCase (w : CmdWord) (s : State) :
    ∃ t r, runWord w s = .next t ∧ AnswerCase s t r (raisedCause w s) := by
  cases hw : decode w with
  | ok i =>
    rw [runWord_of_decode hw, raisedCause_of_command hw]
    exact exec_answerCase i s
  | error r =>
    rw [raisedCause_of_reserved hw]
    exact ⟨_, _, runWord_of_reserved hw s, answerCase_causeWord _ s⟩

theorem causeCode_cases (c : Cause) : causeCode c = 1 ∨ causeCode c = 2 ∨ causeCode c = 3 := by
  cases c <;> decide

/-- Settles O46: an answer with `err = 1` is the word of a cause, and it is all that was changed. -/
theorem errorsChangeNoState : Obligations.ErrorsChangeNoState := by
  intro w s
  obtain ⟨t, r, hrun, hanswer⟩ := runWord_answerCase w s
  refine ⟨t, r, hrun, hanswer.responses_eq, fun herr => ?_⟩
  generalize raisedCause w s = cause at hanswer
  cases hanswer with
  | raised c hr ht =>
    have hdata : r.extractLsb 63 0 = causeCode c := hr ▸ extract_data 1 (causeCode c)
    exact ⟨ht, hdata ▸ causeCode_cases c⟩
  | answered hr ht => cases hr.symm.trans herr

/-- Settles O47: the word of the first check that fails, or `err = 0` where none does. -/
theorem causesFollowThePriority : Obligations.CausesFollowThePriority := by
  intro w s
  obtain ⟨t, r, hrun, hanswer⟩ := runWord_answerCase w s
  refine ⟨t, r, hrun, hanswer.responses_eq, ?_⟩
  rw [raisedCause_eq_firstFailedCheck] at hanswer
  simp only [opField_eq_extractLsb, argField_eq_extractLsb, ← precisionInRange_iff]
  split_ifs at hanswer ⊢
  · exact hanswer.eq_causeWord
  · exact hanswer.err_eq_zero
  · exact hanswer.eq_causeWord
  · exact hanswer.err_eq_zero
  · exact hanswer.eq_causeWord

end Sys2Proof.Machine
end

section
/-! PROOFS. Reset and runs (70_reset_and_hazards). -/

namespace Sys2Proof.Machine

/-! ### Reset (rules R105, R106) -/

theorem step_of_reset {s : State} {rest : List HostMove} (h : s.stream = .reset :: rest) :
    step s = .next (resetBlock { s with stream := rest, pos := s.pos + 1 }) := by
  rw [step, nextMove, h, List.head?_cons, advance_of_stream h]

/-- A reset leaves no estimator, and so no cell to read. -/
theorem regRead_resetBlock (s : State) (j : Nat) : regRead (resetBlock s) j = none :=
  regRead_eq_none (hasCell_eq_false (.inl (resetBlock_valid s)))

/-- Settles O8: the step is `resetBlock` on the state whose stream and index have moved by one. -/
theorem resetMoveLeavesTheResetState : Obligations.ResetMoveLeavesTheResetState := by
  intro s rest hs
  exact ⟨_, step_of_reset hs, resetBlock_valid _, resetBlock_p _, resetBlock_acc _, resetBlock_vcnt _,
    regRead_resetBlock _, resetBlock_stream _, resetBlock_pos _, resetBlock_responses _⟩

/-! ### Steps always answer (rule R116) -/

/-- The step of a command word takes the word off the stream and adds one response. -/
theorem step_of_command_answers {s : State} {w : CmdWord} {rest : List HostMove}
    (h : s.stream = .command w :: rest) :
    ∃ t r, step s = .next t ∧ t.stream = rest ∧ t.pos = s.pos + 1 ∧ t.responses = s.responses ++ [r] := by
  obtain ⟨t, r, hrun, hresp, hstream, hpos⟩ :=
    everyWordGetsOneResponse w { s with stream := rest, pos := s.pos + 1 }
  exact ⟨t, r, (step_of_command h).trans hrun, hstream, hpos, hresp⟩

/-- Settles O10: an idle block, a reset and a command word each answer a next state. -/
theorem everyStepHasANextState : Obligations.EveryStepHasANextState := by
  intro s
  cases hs : s.stream with
  | nil => exact ⟨s, idleStepKeepsTheState s hs⟩
  | cons m rest =>
    cases m with
    | reset => exact ⟨_, step_of_reset hs⟩
    | command w =>
      obtain ⟨t, r, hstep, -⟩ := step_of_command_answers hs
      exact ⟨t, hstep⟩

/-- Settles O12, by induction on the list of words: the first step leaves the rest of the list. -/
theorem commandListRunsToItsEnd : Obligations.CommandListRunsToItsEnd := by
  intro ws
  induction ws with
  | nil =>
    intro s hs
    exact ⟨s, [], run_zero s, hs, rfl, (List.append_nil _).symm, rfl⟩
  | cons w ws ih =>
    intro s hs
    obtain ⟨u, r, hstep, hu, hupos, huresp⟩ := step_of_command_answers hs
    obtain ⟨t, rs, hrun, ht, htpos, htresp, hlen⟩ := ih u hu
    refine ⟨t, r :: rs, (run_of_step ws.length hstep).trans hrun, ht, ?_, ?_, congrArg (· + 1) hlen⟩
    · rw [htpos, hupos, List.length_cons, Nat.add_assoc, Nat.add_comm 1]
    · rw [htresp, huresp, List.append_assoc, List.singleton_append]

end Sys2Proof.Machine
end
